-- ==== Sys2Proof/Word.lean ====
section
/-! DEFINITION. The two plain data types every other file uses: a byte of a program buffer, and a text.

Cell values, addresses and operands are `Int` and `Nat`: the spec computes on unbounded numbers (R9, R13). -/

namespace Sys2Proof

/-- A byte of the program buffer or of a text (R8, R14). -/
abbrev Byte := BitVec 8

/-- An assembly text, a line, a token or a string of an output, as bytes (R91, D28). -/
abbrev Text := List Byte

end Sys2Proof
end

