-- ==== Sys2Proof/Config.lean ====
section
/-! DEFINITION. The configuration of a run: what is fixed before it and never changes during it (R7, R30). -/

namespace Sys2Proof

/-- `memSize` is the spec's `MEM_SIZE`, a parameter with default 1024 (R7, D7, U10). -/
structure Config where
  memSize : Nat := 1024
  deriving DecidableEq, Repr

end Sys2Proof
end

