-- ==== Sys2Proof/Syntax.lean ====
section
/-! DEFINITION. The instructions: one constructor per row of the opcode table (R72).

Operands are natural numbers, as R76 uses them; that each fits its field is `WellFormed`. -/

namespace Sys2Proof

/-- The four instructions, operands in the table's order (R72). -/
inductive Instr where
  /-- Tag 90: store the immediate `value` in cell `dst` (R130). -/
  | loadConstant (dst value : Nat)
  /-- Tag 1: load through the pointer cell `base`, plus `offset`, into cell `dst` (R134). -/
  | readMemory (dst base offset : Nat)
  /-- Tag 62: copy cell `src` to cell `dst` (R138). -/
  | writeMemory (dst src : Nat)
  /-- Tag 137: integer square root of the cell `srcPtr` points to, into cell `dstBase + dstOffset` (R150). -/
  | sqrt (dstBase dstOffset srcPtr : Nat)
  deriving DecidableEq, Repr

end Sys2Proof
end

