-- ==== Sys2Proof/Decode.lean ====
section
/-! DEFINITION. The opcode table (its literals stand here only: R11, R72), the decoder (R80), the encoder of one
instruction (R98), and the word interface of the host.

Decoder and encoder both read the one table `tagOf`, `widthsOf`. -/

namespace Sys2Proof

/-- The four opcodes, by the spec's names (R20, R72). -/
inductive Opcode where
  | loadConstant
  | readMemory
  | writeMemory
  | sqrt
  deriving DecidableEq, Repr

/-- The tag byte's value (R72). -/
def tagOf : Opcode → Nat
  | .loadConstant => 90
  | .readMemory => 1
  | .writeMemory => 62
  | .sqrt => 137

/-- The widths in bytes of the operand fields, in order (R71, R72). -/
def widthsOf : Opcode → List Nat
  | .loadConstant => [4, 4]
  | .readMemory => [4, 4, 2]
  | .writeMemory => [4, 4]
  | .sqrt => [4, 2, 4]

/-- Every row of the opcode table, in its order (R72). -/
def allOpcodes : List Opcode := [.loadConstant, .readMemory, .writeMemory, .sqrt]

/-- The tag as the byte that stands in the program buffer. -/
def tagByte (op : Opcode) : Byte := BitVec.ofNat 8 (tagOf op)

/-- Total length in bytes: the tag and its operand fields (R70, R79). -/
def lengthOf (op : Opcode) : Nat := 1 + (widthsOf op).sum

/-- The opcode a tag value names, if any (R72, R82). -/
def opcodeOfTag (t : Nat) : Option Opcode := allOpcodes.find? fun op => tagOf op == t

/-- Length of the shortest instruction (R119's 9). -/
def shortestLength : Nat := (allOpcodes.map lengthOf).foldl min (lengthOf .loadConstant)

/-- Length of the longest instruction (11 bytes, R71). -/
def longestLength : Nat := (allOpcodes.map lengthOf).foldl max 0

/-- `be_N` of a byte sequence: the first byte is the most significant (R15). -/
def beValue : List Byte → Nat
  | [] => 0
  | b :: bs => b.toNat * 256 ^ bs.length + beValue bs

/-- `bytes_be_k v`: the `k` bytes of `v`, most significant first (R15). -/
def beBytes : (k v : Nat) → List Byte
  | 0, _ => []
  | k + 1, v => BitVec.ofNat 8 (v / 256 ^ k) :: beBytes k v

/-- Operand `j` of the bytes after the tag: its field, read big-endian and unsigned (R73-R76). -/
def operandAt (op : Opcode) (rest : List Byte) (j : Nat) : Nat :=
  beValue ((rest.drop ((widthsOf op).take j).sum).take ((widthsOf op).getD j 0))

/-- The instruction of an opcode whose operand `j` is `v j`, operands in the table's order (R72). -/
def instrOf (op : Opcode) (v : Nat → Nat) : Instr :=
  match op with
  | .loadConstant => .loadConstant (v 0) (v 1)
  | .readMemory => .readMemory (v 0) (v 1) (v 2)
  | .writeMemory => .writeMemory (v 0) (v 1)
  | .sqrt => .sqrt (v 0) (v 1) (v 2)

/-- Why bytes do not decode (R80). -/
inductive DecodeError where
  /-- The tag is none of the four (R171). -/
  | unknownOpcode (tag : Byte)
  /-- The tag is known, but fewer than `needed` operand bytes follow it (R173). -/
  | truncated (tag : Byte) (needed remaining : Nat)
  /-- There is no tag byte. The spec's `decode` requires `pc < L`, so it never meets this case. -/
  | noTagByte
  deriving DecidableEq, Repr

/-- The decode function (R80) on the bytes from the tag on: the instruction and its length, or why there is none.
The tag is checked before the length, and no byte past the instruction is read. -/
def decodeBytes : List Byte → Except DecodeError (Instr × Nat)
  | [] => .error .noTagByte
  | t :: rest =>
    match opcodeOfTag t.toNat with
    | none => .error (.unknownOpcode t)
    | some op =>
      if rest.length < lengthOf op - 1 then .error (.truncated t (lengthOf op - 1) rest.length)
      else .ok (instrOf op (operandAt op rest), lengthOf op)

/-- `decode(P, pc)` (R80). -/
def decodeAt (P : List Byte) (pc : Nat) : Except DecodeError (Instr × Nat) := decodeBytes (P.drop pc)

/-! ### The encoder of one instruction (R98) -/

/-- The opcode of an instruction. -/
def opcodeOf : Instr → Opcode
  | .loadConstant _ _ => .loadConstant
  | .readMemory _ _ _ => .readMemory
  | .writeMemory _ _ => .writeMemory
  | .sqrt _ _ _ => .sqrt

/-- The operands of an instruction, in the table's order (R72). -/
def operandsOf : Instr → List Nat
  | .loadConstant dst value => [dst, value]
  | .readMemory dst base offset => [dst, base, offset]
  | .writeMemory dst src => [dst, src]
  | .sqrt dstBase dstOffset srcPtr => [dstBase, dstOffset, srcPtr]

/-- Operand values as consecutive big-endian fields of the given widths (R70, R98). -/
def encodeFields : (widths values : List Nat) → List Byte
  | w :: ws, v :: vs => beBytes w v ++ encodeFields ws vs
  | _, _ => []

/-- The bytes of a well-formed instruction: the tag, then the operand fields (R70, R98). -/
def encode (i : Instr) : List Byte :=
  tagByte (opcodeOf i) :: encodeFields (widthsOf (opcodeOf i)) (operandsOf i)

/-! ### The word interface of the host -/

/-- The bytes of an instruction given as one number whose bits 7..0 are its first byte, 15..8 its second, and so
on; the bits from `nbits` on are 0, up to the longest instruction. -/
def tableBytes (nbits w : Nat) : List Byte :=
  (List.range (max ((nbits + 7) / 8) longestLength)).map fun j => BitVec.ofNat 8 (w % 2 ^ nbits / 256 ^ j)

/-- What the decoder reads from the instruction whose bits are `w`, numbered as the opcode table numbers them. -/
def decodeTableWord (nbits w : Nat) : Option Instr :=
  match decodeBytes (tableBytes nbits w) with
  | .ok (i, _) => some i
  | .error _ => none

end Sys2Proof
end

