-- ==== Sys2Proof/Machine/State.lean ====
section
/-! DEFINITION. The state of the Decoder/Executor (R30), its start-of-run value (R42), and the ways a step stops. -/

namespace Sys2Proof.Machine

/-- The data memory M: the cells that are not 0, as (index, value) pairs, indices rising (R34). An unlisted cell
holds 0, the start-of-run value the spec gives (R42). Cells are whole integers, not bytes (R9, R50). -/
abbrev Memory := List (Nat × Int)

/-- The canonical form: indices strictly rise, and no listed cell holds what an unlisted one reads as. -/
abbrev Memory.wf (m : Memory) : Prop :=
  m.Pairwise (fun c d => c.1 < d.1) ∧ ∀ c ∈ m, c.2 ≠ 0

/-- The five error kinds (R19, R170). -/
inductive ErrKind where
  | unknownOpcode
  | malformedOperand
  | truncatedInstruction
  | memoryOutOfBounds
  | negativeSqrt
  deriving DecidableEq, Repr

/-- What a Decoder error records beside its offset and tag, by kind (R170, R176). MalformedOperand is the
Encoder's alone (R172), so it has no case here. -/
inductive ErrInfo where
  /-- The tag is none of the four (R171). -/
  | unknownOpcode
  /-- `needed` operand bytes, only `remaining` are there (R173). -/
  | truncatedInstruction (needed remaining : Nat)
  /-- An access outside `[0, MEM_SIZE)` (R174). -/
  | memoryOutOfBounds (address : Int)
  /-- SQRT of the negative `value` of cell `address` (R175). -/
  | negativeSqrt (address value : Int)
  deriving DecidableEq, Repr

/-- The error record of a Decoder error (R176): `offset` and `tag` are those of the failing instruction. -/
structure ErrRecord where
  offset : Nat
  tag : Byte
  info : ErrInfo
  deriving DecidableEq, Repr

/-- The run status (R35, D29). -/
inductive Status where
  | running
  | done
  | faulted (e : ErrRecord)
  deriving DecidableEq, Repr

/-- The state of the Decoder/Executor (R30), with the configuration of the run beside it (log entry 2). -/
structure State where
  /-- The configuration of the run; no step changes it (R7). -/
  cfg : Config
  /-- The program buffer P (R32). -/
  prog : List Byte
  /-- The decode offset (R33). -/
  pc : Nat
  /-- The data memory M (R34). -/
  mem : Memory
  /-- The run status (R35). -/
  status : Status
  deriving DecidableEq, Repr

/-- Stops of the model, each from a state where the spec defines no step. The spec's own errors are no faults
here: they are next states whose status is `faulted` (R116, R177). -/
inductive Fault where
  /-- `step` raises it when the run has ended normally: no step is defined from `done` (R117). Safe. -/
  | runDone
  /-- `step` raises it when the run has ended by the error `e`: no step is defined from `faulted` (R117). Safe. -/
  | runFaulted (e : ErrRecord)
  /-- `step` raises it when `pc` lies beyond the program's end, which R33 and R115 exclude. Safe. -/
  | pcPastEnd
  deriving DecidableEq, Repr

/-- Refusals. Every instruction of the table has a meaning, so no step raises one. -/
inductive Refusal where
  /-- An arm of `exec` raises it for an instruction that has no meaning yet; there is none. Safe. -/
  | notModelled (mnemonic : String)
  deriving DecidableEq, Repr

/-- The start of a run of the program `P` (R42, R110, R200). -/
def State.start (cfg : Config) (P : List Byte) : State :=
  { cfg := cfg, prog := P, pc := 0, mem := [], status := .running }

/-- The machine right after reset: 1024 cells (R7) and no program placed (log entry 5). -/
def State.reset : State := State.start {} []

end Sys2Proof.Machine
end

