-- ==== Sys2Proof/Machine/Ops.lean ====
section
/-! DEFINITION. The named operations over the state: reading and writing a cell, raising an error (the CORE's trap
entry, R177), retiring an instruction (R114, R116), ending a run (R113), and fetching (R111).

There is no return from an error: a faulted run never resumes (R179). -/

namespace Sys2Proof.Machine

/-! ### Memory -/

/-- The value of cell `a`; 0 when nothing is listed for it (R42, R61). -/
def Memory.read : Memory → Nat → Int
  | [], _ => 0
  | (b, w) :: m, a => if b = a then w else Memory.read m a

/-- The memory with nothing listed for cell `a`. -/
def Memory.clear : Memory → Nat → Memory
  | [], _ => []
  | (b, w) :: m, a => if b = a then Memory.clear m a else (b, w) :: Memory.clear m a

/-- List the cell `c` before the first listed cell of a greater index. -/
def Memory.insert : Memory → Nat × Int → Memory
  | [], c => [c]
  | d :: m, c => if c.1 < d.1 then c :: d :: m else d :: Memory.insert m c

/-- The memory whose cell `a` holds `v`, every other cell as before, in canonical form (R54). -/
def Memory.write (m : Memory) (a : Nat) (v : Int) : Memory :=
  if v = 0 then m.clear a else (m.clear a).insert (a, v)

/-- An address is in bounds exactly when `0 <= a` and `a < MEM_SIZE` (R52). -/
abbrev InBounds (s : State) (a : Int) : Prop := 0 ≤ a ∧ a < (s.cfg.memSize : Int)

/-- The bounds check of address `a` (R52, R55). -/
def checkBounds (s : State) (a : Int) : Except ErrInfo Unit :=
  if InBounds s a then .ok () else .error (.memoryOutOfBounds a)

/-- `MemRead(a)` (R53). -/
def memRead (s : State) (a : Int) : Except ErrInfo Int :=
  if InBounds s a then .ok (s.mem.read a.toNat) else .error (.memoryOutOfBounds a)

/-- `MemWrite(a, v)` (R54). -/
def memWrite (s : State) (a v : Int) : Except ErrInfo State :=
  if InBounds s a then .ok { s with mem := s.mem.write a.toNat v } else .error (.memoryOutOfBounds a)

/-! ### Errors -/

/-- The kind of a Decoder error (R170). -/
def infoKind : ErrInfo → ErrKind
  | .unknownOpcode => .unknownOpcode
  | .truncatedInstruction _ _ => .truncatedInstruction
  | .memoryOutOfBounds _ => .memoryOutOfBounds
  | .negativeSqrt _ _ => .negativeSqrt

/-- The code of an error kind (R170, D9). -/
def kindCode : ErrKind → Nat
  | .unknownOpcode => 1
  | .malformedOperand => 2
  | .truncatedInstruction => 3
  | .memoryOutOfBounds => 4
  | .negativeSqrt => 5

/-- The record's `kind` (R176). -/
def ErrRecord.kind (e : ErrRecord) : ErrKind := infoKind e.info

/-- The record's `code` (R176). -/
def ErrRecord.code (e : ErrRecord) : Nat := kindCode e.kind

/-- The record's `address`, present for MemoryOutOfBounds and NegativeSqrt (R176). -/
def ErrRecord.address? (e : ErrRecord) : Option Int :=
  match e.info with
  | .unknownOpcode => none
  | .truncatedInstruction _ _ => none
  | .memoryOutOfBounds a => some a
  | .negativeSqrt a _ => some a

/-- The record's `value`, present for NegativeSqrt only (R176). -/
def ErrRecord.value? (e : ErrRecord) : Option Int :=
  match e.info with
  | .unknownOpcode => none
  | .truncatedInstruction _ _ => none
  | .memoryOutOfBounds _ => none
  | .negativeSqrt _ v => some v

/-- The record's `needed`, present for TruncatedInstruction only (R176). -/
def ErrRecord.needed? (e : ErrRecord) : Option Nat :=
  match e.info with
  | .unknownOpcode => none
  | .truncatedInstruction n _ => some n
  | .memoryOutOfBounds _ => none
  | .negativeSqrt _ _ => none

/-- The record's `remaining`, present for TruncatedInstruction only (R176). -/
def ErrRecord.remaining? (e : ErrRecord) : Option Nat :=
  match e.info with
  | .unknownOpcode => none
  | .truncatedInstruction _ r => some r
  | .memoryOutOfBounds _ => none
  | .negativeSqrt _ _ => none

/-- Taking an error, the CORE's trap entry: only `status` changes; `pc` stays at the failing instruction and
memory is as the previous instruction left it (R116, R176, R177). -/
def raise (s : State) (tag : Byte) (info : ErrInfo) : State :=
  { s with status := .faulted { offset := s.pc, tag := tag, info := info } }

/-! ### Ending an instruction and a run -/

/-- `pc <- pc + n`, with `n` the length of the instruction just executed (R114). -/
def advance (op : Opcode) (s : State) : State := { s with pc := s.pc + lengthOf op }

/-- The end of an instruction whose effect on memory answered `r`: advance past it, or take its error
(R114, R116, R117). -/
def retire (op : Opcode) (s : State) (r : Except ErrInfo State) : Host.Outcome State Fault Refusal :=
  match r with
  | .ok t => .next (advance op t)
  | .error info => .next (raise s (tagByte op) info)

/-- The normal end of a run (R113). -/
def finish (s : State) : State := { s with status := .done }

/-! ### Fetching -/

/-- What stands at the decode offset of a running machine. -/
inductive Fetched where
  /-- `pc = L`: the run ends normally (R113). -/
  | endOfProgram
  /-- An instruction (R111). -/
  | instr (i : Instr)
  /-- Bytes that do not decode: the tag and the error (R171, R173). -/
  | undecodable (tag : Byte) (info : ErrInfo)
  /-- `pc > L`, which R33 and R115 exclude. -/
  | pastEnd
  deriving DecidableEq, Repr

/-- Fetch and decode at `pc` (R111, R113). -/
def fetch (s : State) : Fetched :=
  if s.pc = s.prog.length then .endOfProgram
  else
    match decodeAt s.prog s.pc with
    | .ok (i, _) => .instr i
    | .error (.unknownOpcode t) => .undecodable t .unknownOpcode
    | .error (.truncated t needed remaining) => .undecodable t (.truncatedInstruction needed remaining)
    | .error .noTagByte => .pastEnd

/-- The running state with the bytes `bs` in the program buffer from `pc` on, the rest of the buffer as it was. It
stands for the host's placing of a program (R202); no instruction writes the buffer (R32). -/
def placeAtPc (s : State) (bs : List Byte) : State :=
  { s with
    prog := (s.prog ++ List.replicate (s.pc - s.prog.length) 0).take s.pc ++ bs ++ s.prog.drop (s.pc + bs.length)
    status := .running }

end Sys2Proof.Machine
end

