-- ==== Sys2Proof/Machine/Operands.lean ====
section
/-! DEFINITION. The operand forms: what address an operand names (R77). All sums are exact integers (R13). -/

namespace Sys2Proof.Machine

/-- A direct address: the operand as it stands (R77). -/
def directAddr (operand : Nat) : Int := operand

/-- Base plus offset: the exact sum of two operands, never wrapped (R152). -/
def offsetAddr (base offset : Nat) : Int := (base : Int) + (offset : Int)

/-- A pointer cell: the address held by the cell the operand names (R77). -/
def pointerAddr (s : State) (operand : Nat) : Except ErrInfo Int := memRead s (directAddr operand)

/-- A pointer cell plus an offset: the exact sum of the cell's value and the operand (R134, R135). -/
def pointerOffsetAddr (s : State) (operand offset : Nat) : Except ErrInfo Int :=
  match pointerAddr s operand with
  | .ok p => .ok (p + (offset : Int))
  | .error e => .error e

end Sys2Proof.Machine
end

