-- ==== Sys2Proof/Machine/MemoryTransfer.lean ====
section
/-! DEFINITION. The memory transfer instructions (41_memory_transfer.md). Each does its reads and checks in the
spec's order and makes its one write last (R58). -/

namespace Sys2Proof.Machine

/-- LOAD_CONSTANT: `M[dst] <- value` (R130, R131). -/
def execLoadConstant (dst value : Nat) (s : State) : Host.Outcome State Fault Refusal :=
  retire .loadConstant s (memWrite s (directAddr dst) (value : Int))

/-- READ_MEMORY: `M[dst] <- M[M[base] + offset]`, checked in the order `base`, address, `dst` (R134-R136). -/
def execReadMemory (dst base offset : Nat) (s : State) : Host.Outcome State Fault Refusal :=
  retire .readMemory s <|
    match pointerOffsetAddr s base offset with
    | .error e => .error e
    | .ok addr =>
      match memRead s addr with
      | .error e => .error e
      | .ok v => memWrite s (directAddr dst) v

/-- WRITE_MEMORY: `M[dst] <- M[src]`, `dst` checked before `src` (R138, R139). -/
def execWriteMemory (dst src : Nat) (s : State) : Host.Outcome State Fault Refusal :=
  retire .writeMemory s <|
    match checkBounds s (directAddr dst) with
    | .error e => .error e
    | .ok () =>
      match memRead s (directAddr src) with
      | .error e => .error e
      | .ok v => memWrite s (directAddr dst) v

end Sys2Proof.Machine
end

