-- ==== Sys2Proof/Machine/SquareRoot.lean ====
section
/-! DEFINITION. The integer square root instruction (42_integer_sqrt.md). -/

namespace Sys2Proof.Machine

/-- Find the root of `v` bit by bit, the highest of `k` bits first: `r` holds the bits already found. -/
def isqrtBits (v : Nat) : (k r : Nat) → Nat
  | 0, r => r
  | k + 1, r => if (r + 2 ^ k) * (r + 2 ^ k) ≤ v then isqrtBits v k (r + 2 ^ k) else isqrtBits v k r

/-- `isqrt(v)`, the `r` with `r * r <= v < (r + 1) * (r + 1)` (R151). -/
def isqrt (v : Nat) : Nat := isqrtBits v (v.log2 + 1) 0

/-- SQRT: `M[dstBase + dstOffset] <- isqrt(M[M[srcPtr]])`, checked in the order `srcPtr`, address, sign,
destination (R150-R154). -/
def execSqrt (dstBase dstOffset srcPtr : Nat) (s : State) : Host.Outcome State Fault Refusal :=
  retire .sqrt s <|
    match pointerAddr s srcPtr with
    | .error e => .error e
    | .ok addr =>
      match memRead s addr with
      | .error e => .error e
      | .ok v =>
        if v < 0 then .error (.negativeSqrt addr v)
        else memWrite s (offsetAddr dstBase dstOffset) (isqrt v.toNat : Int)

end Sys2Proof.Machine
end

