-- ==== Sys2Proof/Machine/Dispatch.lean ====
section
/-! DEFINITION. Dispatch of a decoded instruction to its meaning (R112). -/

namespace Sys2Proof.Machine

def exec (i : Instr) (s : State) : Host.Outcome State Fault Refusal :=
  match i with
  | .loadConstant dst value => Sys2Proof.Machine.execLoadConstant dst value s
  | .readMemory dst base offset => Sys2Proof.Machine.execReadMemory dst base offset s
  | .writeMemory dst src => Sys2Proof.Machine.execWriteMemory dst src s
  | .sqrt dstBase dstOffset srcPtr => Sys2Proof.Machine.execSqrt dstBase dstOffset srcPtr s

end Sys2Proof.Machine
end

