-- ==== Sys2Proof/Machine/Step.lean ====
section
/-! DEFINITION. The step function (R117), and the host's placing of an instruction where the next step fetches. -/

namespace Sys2Proof.Machine

/-- One step: end the run, or decode and execute one whole instruction, or take an error (R10, R117). -/
def step (s : State) : Host.Outcome State Fault Refusal :=
  match s.status with
  | .done => .fault .runDone
  | .faulted e => .fault (.runFaulted e)
  | .running =>
    match fetch s with
    | .endOfProgram => .next (finish s)
    | .instr i => exec i s
    | .undecodable tag info => .next (raise s tag info)
    | .pastEnd => .fault .pcPastEnd

/-- The instruction whose bits are `w`, numbered as the opcode table numbers them, placed at `pc` (log entry 5). -/
def State.withFetchWord (s : State) (nbits w : Nat) : State := placeAtPc s (tableBytes nbits w)

end Sys2Proof.Machine
end

