-- ==== Sys2Proof/WellFormed.lean ====
section
/-! DEFINITION. Which instructions an encoding can carry: every operand fits its field of the opcode table (R76,
R97). Every value that fits is legal: no operand value is reserved (R78). -/

namespace Sys2Proof

/-- Each value fits its field of the given width in bytes: `0 <= v < 256 ^ w` (R97). -/
def fitsFields : (widths values : List Nat) → Bool
  | w :: ws, v :: vs => decide (v < 256 ^ w) && fitsFields ws vs
  | [], [] => true
  | _, _ => false

/-- Every operand fits its field (R76, R97). -/
abbrev WellFormed (i : Instr) : Prop := fitsFields (widthsOf (opcodeOf i)) (operandsOf i) = true

end Sys2Proof
end

