-- ==== Sys2Proof/Machine/Assembler.lean ====
section
/-! DEFINITION. The Encoder (assembler): assembly text to bytes and log records (30_encoding.md, part 2).

It has no access to the machine's state (R41, R98); its working state within one run is `EncoderState`. Character
values are ASCII code points (R91, K1). -/

namespace Sys2Proof.Assembler

open Sys2Proof.Machine

/-! ### Characters and lines -/

/-- The bytes of an ASCII text. -/
def ascii (cs : List Char) : Text := cs.map fun c => BitVec.ofNat 8 c.toNat

/-- Line feed, the line separator (R91). -/
def lineFeed : Byte := 0x0A

/-- `#`, which starts a comment line (R92). -/
def hashSign : Byte := 0x23

/-- The whitespace characters: space, tab, carriage return, vertical tab, form feed (R91). -/
def isSpace (b : Byte) : Bool := b == 0x20 || b == 0x09 || b == 0x0D || b == 0x0B || b == 0x0C

/-- An ASCII decimal digit (R94). -/
def isDigit (b : Byte) : Bool := decide (0x30 ≤ b.toNat ∧ b.toNat ≤ 0x39)

/-- The pieces of a text between the occurrences of `sep`, in order; always at least one piece. -/
def splitAtByte (sep : Byte) : Text → List Text
  | [] => [[]]
  | b :: bs =>
    if b = sep then [] :: splitAtByte sep bs
    else
      match splitAtByte sep bs with
      | [] => [[b]]
      | piece :: pieces => (b :: piece) :: pieces

/-- The physical lines of a text (R91). After a final line feed comes one more, empty line, which is blank and so
has no effect (R92). -/
def physicalLines (text : Text) : List Text := splitAtByte lineFeed text

/-- Remove whitespace at both ends (R91). -/
def trim (t : Text) : Text := ((t.dropWhile isSpace).reverse.dropWhile isSpace).reverse

/-- A trimmed line that is blank or a comment (R92). -/
def isSkipped (s : Text) : Bool := s == [] || s.head? == some hashSign

/-- The tokens of a line, split at maximal runs of whitespace (R93); `cur` is the token begun, reversed. -/
def tokensFrom (cur : Text) : Text → List Text
  | [] => if cur = [] then [] else [cur.reverse]
  | b :: bs =>
    if isSpace b then
      if cur = [] then tokensFrom [] bs else cur.reverse :: tokensFrom [] bs
    else tokensFrom (b :: cur) bs

/-- The tokens of a line (R93). -/
def tokens (s : Text) : List Text := tokensFrom [] s

/-! ### Integer tokens (R94) -/

/-- The number a nonempty string of digits spells. -/
def digitsValue (ds : Text) : Option Nat :=
  if ds ≠ [] ∧ ds.all isDigit = true then some (ds.foldl (fun n d => 10 * n + (d.toNat - 0x30)) 0) else none

/-- The value of a numeric token `[+-]?[0-9]+`, none for any other token (R94). -/
def tokenValue : Text → Option Int
  | [] => none
  | b :: ds =>
    if b = 0x2B then (digitsValue ds).map Int.ofNat
    else if b = 0x2D then (digitsValue ds).map fun (n : Nat) => -(n : Int)
    else (digitsValue (b :: ds)).map Int.ofNat

/-! ### One line -/

/-- The error kinds an Encoder run can end in (R101, R170). -/
inductive AsmErrKind where
  | unknownOpcode
  | malformedOperand
  deriving DecidableEq, Repr

/-- The kind's name in the taxonomy of all errors (R170). -/
def asmKind : AsmErrKind → ErrKind
  | .unknownOpcode => .unknownOpcode
  | .malformedOperand => .malformedOperand

/-- The opcode an opcode token names: numeric, with one of the four values (R95). -/
def opcodeOfToken (t : Text) : Option Opcode :=
  match tokenValue t with
  | some (.ofNat n) => opcodeOfTag n
  | some (.negSucc _) => none
  | none => none

/-- The value of an operand token for a field of `w` bytes: numeric, and `0 <= v < 256 ^ w` (R97). -/
def operandOfToken (w : Nat) (t : Text) : Option Nat :=
  match tokenValue t with
  | some (.ofNat n) => if n < 256 ^ w then some n else none
  | some (.negSucc _) => none
  | none => none

/-- The values of the operand tokens, checked left to right against the fields' widths (R97). -/
def operandsOfTokens : (widths : List Nat) → List Text → Option (List Nat)
  | w :: ws, t :: ts =>
    match operandOfToken w t with
    | none => none
    | some v => (operandsOfTokens ws ts).map fun vs => v :: vs
  | [], [] => some []
  | _, _ => none

/-- The instruction of a trimmed instruction line: opcode, then arity, then operands are checked (R95-R97). -/
def assembleLine (s : Text) : Except AsmErrKind Instr :=
  match tokens s with
  | [] => .error .unknownOpcode
  | t :: ts =>
    match opcodeOfToken t with
    | none => .error .unknownOpcode
    | some op =>
      if ts.length ≠ (widthsOf op).length then .error .malformedOperand
      else
        match operandsOfTokens (widthsOf op) ts with
        | none => .error .malformedOperand
        | some vs => .ok (instrOf op fun j => vs.getD j 0)

/-! ### A whole text -/

/-- One lowercase hex digit (R100). -/
def hexDigit (n : Nat) : Byte := BitVec.ofNat 8 (if n < 10 then 0x30 + n else 0x61 + (n - 10))

/-- Two lowercase hex digits per byte, in byte order (R100, D18). -/
def hex : List Byte → Text
  | [] => []
  | b :: bs => hexDigit (b.toNat / 16) :: hexDigit (b.toNat % 16) :: hex bs

/-- One record of the instruction log: the trimmed line and the hex of its bytes (R100, C8). -/
structure LogRecord where
  instruction : Text
  binary : Text
  deriving DecidableEq, Repr

/-- The error record of an Encoder run: kind, physical line number, trimmed line (R101, R176). -/
structure AsmError where
  kind : AsmErrKind
  line : Nat
  text : Text
  deriving DecidableEq, Repr

/-- The record's code (R170). -/
def AsmError.code (e : AsmError) : Nat := kindCode (asmKind e.kind)

/-- The Encoder's working state within one run (R41). -/
structure EncoderState where
  out : List Byte
  log : List LogRecord
  line : Nat
  deriving DecidableEq, Repr

/-- The working state every Encoder run starts from (R41, R201). -/
def EncoderState.start : EncoderState := { out := [], log := [], line := 1 }

/-- Encode one physical line: skip it, add its bytes and its record, or fail (R92, R99). -/
def encodeLine (st : EncoderState) (raw : Text) : Except AsmError EncoderState :=
  if isSkipped (trim raw) then .ok { st with line := st.line + 1 }
  else
    match assembleLine (trim raw) with
    | .error k => .error { kind := k, line := st.line, text := trim raw }
    | .ok i =>
      .ok { out := st.out ++ encode i
            log := st.log ++ [{ instruction := trim raw, binary := hex (encode i) }]
            line := st.line + 1 }

/-- Encode physical lines in order, stopping at the first error (R99). -/
def encodeLines (st : EncoderState) : List Text → Except AsmError EncoderState
  | [] => .ok st
  | raw :: raws =>
    match encodeLine st raw with
    | .error e => .error e
    | .ok st' => encodeLines st' raws

/-- The Encoder: a text to its bytes and log, or one error and nothing else (R99). -/
def encodeProgram (text : Text) : Except AsmError (List Byte × List LogRecord) :=
  match encodeLines .start (physicalLines text) with
  | .error e => .error e
  | .ok st => .ok (st.out, st.log)

/-- The instruction a physical line stands for, if it is an instruction line that assembles: its line tuple. -/
def lineTuple (raw : Text) : Option Instr :=
  if isSkipped (trim raw) then none
  else
    match assembleLine (trim raw) with
    | .error _ => none
    | .ok i => some i

/-- The line tuples of a text, in source order (R103). -/
def lineTuples (text : Text) : List Instr := (physicalLines text).filterMap lineTuple

/-! ### Decimal spelling -/

/-- The decimal digits of `n`, most significant first, in front of `acc`; `fuel` bounds how many. -/
def decimalDigits : (fuel n : Nat) → Text → Text
  | 0, _, acc => acc
  | fuel + 1, n, acc =>
    if n < 10 then BitVec.ofNat 8 (0x30 + n) :: acc
    else decimalDigits fuel (n / 10) (BitVec.ofNat 8 (0x30 + n % 10) :: acc)

/-- The decimal spelling of a natural number, without leading zeros (R103, R213). -/
def decimal (n : Nat) : Text := decimalDigits (n.log2 + 1) n []

/-- The tokens of a canonical line, joined by single spaces. -/
def spaced : List Text → Text
  | [] => []
  | [t] => t
  | t :: t' :: ts => t ++ 0x20 :: spaced (t' :: ts)

/-- The one line of canonical spelling of an instruction: unsigned decimal, no leading zeros, single spaces
(R90, R103). -/
def canonicalLine (i : Instr) : Text := spaced ((tagOf (opcodeOf i) :: operandsOf i).map decimal)

end Sys2Proof.Assembler
end

