-- ==== Sys2Proof/Machine/Report.lean ====
section
/-! DEFINITION. The result report and the values both outputs are serialised as (70_reset_and_hazards.md,
R211-R215). How a JSON value is spelled is free (R215, U9), so the outputs are values, not spellings. -/

namespace Sys2Proof.Report

open Sys2Proof.Machine Sys2Proof.Assembler

/-- The report range `[first, limit)` (R211, R212). -/
structure Range where
  first : Int
  limit : Int
  deriving DecidableEq, Repr

/-- The colon of a range string (R211). -/
def colon : Byte := 0x3A

/-- The range a range string `start:end` gives: a numeric token, exactly one `:`, a numeric token, nothing else
(R211). -/
def parseRange (t : Text) : Option Range :=
  match splitAtByte colon t with
  | [a, b] =>
    match tokenValue a, tokenValue b with
    | some first, some limit => some { first := first, limit := limit }
    | _, _ => none
  | _ => none

/-- The cells of `n` addresses from `a` on, each read with `MemRead` in ascending order (R212). -/
def cellsFrom (s : State) (a : Int) : (n : Nat) → Except ErrInfo (List (Int × Int))
  | 0 => .ok []
  | n + 1 =>
    match memRead s a with
    | .error e => .error e
    | .ok v =>
      match cellsFrom s (a + 1) n with
      | .error e => .error e
      | .ok rest => .ok ((a, v) :: rest)

/-- The report's mapping for a range; empty when `start >= end` (R212). -/
def report (s : State) (r : Range) : Except ErrInfo (List (Int × Int)) :=
  cellsFrom s r.first (r.limit - r.first).toNat

/-! ### Serialised values (R213, R215) -/

/-- A JSON string or integer. -/
inductive JsonScalar where
  | str (t : Text)
  | int (v : Int)
  deriving DecidableEq, Repr

/-- A JSON object with its members in order. -/
abbrev JsonObject := List (Text × JsonScalar)

/-- The key of address `a`: `memory[`, its decimal spelling, `]` (R213). A reported address is never negative. -/
def reportKey (a : Int) : Text := ascii ['m', 'e', 'm', 'o', 'r', 'y', '['] ++ decimal a.toNat ++ ascii [']']

/-- The report as one JSON object (R213, R215). -/
def reportJson (entries : List (Int × Int)) : JsonObject :=
  entries.map fun entry => (reportKey entry.1, JsonScalar.int entry.2)

/-- A log record as a JSON object: `instruction`, then `binary` (R100, R215). -/
def recordJson (r : LogRecord) : JsonObject :=
  [(ascii ['i', 'n', 's', 't', 'r', 'u', 'c', 't', 'i', 'o', 'n'], JsonScalar.str r.instruction),
   (ascii ['b', 'i', 'n', 'a', 'r', 'y'], JsonScalar.str r.binary)]

/-- The log as a JSON array of objects (R100, R215). -/
def logJson (log : List LogRecord) : List JsonObject := log.map recordJson

end Sys2Proof.Report
end

