-- ==== Sys2Proof/Machine/Invocation.lean ====
section
/-! DEFINITION. A whole run, and the two invocations of the host's command surface as far as the spec fixes them:
what is run in which order, what is output, and whether it failed (R203-R210). -/

namespace Sys2Proof.Machine

open Sys2Proof.Assembler Sys2Proof.Report

/-- `k` steps; an ended run stays as it ended (R35). -/
def runSteps : (k : Nat) → State → State
  | 0, s => s
  | k + 1, s =>
    match step s with
    | .next t => runSteps k t
    | .fault _ => s
    | .refused _ => s

/-- Steps within which every run of `P` ends (R119). -/
def stepBudget (P : List Byte) : Nat := P.length / shortestLength + 1

/-- The run of the program `P`, from its start to its end (R203 steps 3 and 4). -/
def runProgram (cfg : Config) (P : List Byte) : State := runSteps (stepBudget P) (State.start cfg P)

/-- Executing instructions directly, one after another, without a binary: the first error ends the run, and the
end of the list is its normal end (R103's "executing the line tuples directly"). -/
def runTuples : List Instr → State → State
  | [], s => finish s
  | i :: is, s =>
    match exec i s with
    | .next t => if t.status = .running then runTuples is t else t
    | .fault _ => s
    | .refused _ => s

/-- Exit status: 0, or some non-zero value that the spec does not fix (R210, U7; log entry 9). -/
inductive ExitStatus where
  | zero
  | nonZero
  deriving DecidableEq, Repr

/-- What the diagnostic of a failed invocation carries; its text is not fixed (R181, R210, U8). -/
inductive Diagnostic where
  /-- An Encoder error (R101). -/
  | encoderError (e : AsmError)
  /-- A malformed range string (R211). -/
  | badRange
  /-- A Decoder error (R176). -/
  | runError (e : ErrRecord)
  /-- MemoryOutOfBounds while building the report (R212). -/
  | reportError (info : ErrInfo)
  /-- The run did not end within its step budget, which R119 excludes. -/
  | notEnded
  deriving DecidableEq, Repr

/-- The diagnostic's numeric code (R170, R211, D9); none where the spec numbers nothing. -/
def diagnosticCode : Diagnostic → Option Nat
  | .encoderError e => some e.code
  | .badRange => some 6
  | .runError e => some e.code
  | .reportError info => some (kindCode (infoKind info))
  | .notEnded => none

/-- What an invocation leaves: what it writes (nothing on failure, R209), its exit status and its diagnostic. -/
structure Invocation (α : Type) where
  written : Option α
  exit : ExitStatus
  diagnostic : Option Diagnostic
  deriving DecidableEq, Repr

/-- A successful invocation (R210). -/
def succeed {α : Type} (output : α) : Invocation α := { written := some output, exit := .zero, diagnostic := none }

/-- A failed invocation: nothing written, non-zero exit, a diagnostic (R209, R210). -/
def fail {α : Type} (d : Diagnostic) : Invocation α := { written := none, exit := .nonZero, diagnostic := some d }

/-- The Encoder's invocation: the binary and the log, or neither (R99, R205, R206, R209). -/
def encoderInvocation (text : Text) : Invocation (List Byte × List JsonObject) :=
  match encodeProgram text with
  | .error e => fail (.encoderError e)
  | .ok (out, log) => succeed (out, logJson log)

/-- The report of an ended run (R203 step 5, R178, R212). -/
def reportInvocation (s : State) (r : Range) : Invocation JsonObject :=
  match s.status with
  | .running => fail .notEnded
  | .faulted e => fail (.runError e)
  | .done =>
    match report s r with
    | .error info => fail (.reportError info)
    | .ok entries => succeed (reportJson entries)

/-- The Decoder's invocation, in the order of R203: the range string first, then the run, then the report. -/
def decoderInvocation (cfg : Config) (P : List Byte) (rangeText : Text) : Invocation JsonObject :=
  match parseRange rangeText with
  | none => fail .badRange
  | some r => reportInvocation (runProgram cfg P) r

end Sys2Proof.Machine
end

