-- ==== Sys2Proof/Safety.lean ====
section
/-! DEFINITION. What counts as a good state and an ended run, in the terms the statements use. -/

namespace Sys2Proof.Machine

/-- The decode offset lies within the program (R33, R115). -/
abbrev PcWithin (s : State) : Prop := s.pc ≤ s.prog.length

/-- Every cell holds a value in `[0, 2^32 - 1]` (R36). -/
def CellsInRange (s : State) : Prop := ∀ a : Nat, 0 ≤ s.mem.read a ∧ s.mem.read a ≤ 2 ^ 32 - 1

/-- Memory is in canonical form and lists only cells that exist (R34). -/
abbrev MemoryCanonical (s : State) : Prop := s.mem.wf ∧ ∀ c ∈ s.mem, c.1 < s.cfg.memSize

/-- The run has ended (R120). -/
abbrev Ended (s : State) : Prop := s.status ≠ .running

end Sys2Proof.Machine

namespace Sys2Proof.Assembler

/-- The whitespace bytes as R91 lists them: space, tab, carriage return, vertical tab, form feed. -/
def whitespace : List Byte := [0x20, 0x09, 0x0D, 0x0B, 0x0C]

end Sys2Proof.Assembler
end

