-- ==== Sys2Proof/Certificates/Slice0/Obligations.lean ====
section
/-! DEFINITION. The statements for the provers, grouped as the spec's files are. Each docstring names the rule it
formalises. A statement that rests on an inference the spec marks as its own, or on a choice of the model, is
'derived' in OBLIGATIONS.json and says so here. -/

open Sys2Proof Sys2Proof.Machine Sys2Proof.Assembler Sys2Proof.Report

/-! ### Encoding and decoding (30_encoding.md, part 1) -/

/-- R15: `beValue` is the sum of the bytes by their big-endian weights, and `beBytes k` is its inverse on `k`
bytes. -/
def Obligations.BigEndianFieldsAndInverse : Prop :=
  (∀ bs : List Byte,
    beValue bs = ∑ j ∈ Finset.range bs.length, (bs.getD j 0).toNat * 256 ^ (bs.length - 1 - j)) ∧
  (∀ k v : Nat, v < 256 ^ k → (beBytes k v).length = k ∧ beValue (beBytes k v) = v) ∧
  (∀ bs : List Byte, beBytes bs.length (beValue bs) = bs)

/-- R79: the length by the tag alone, and no length for any other tag. -/
def Obligations.LengthFollowsFromTag : Prop :=
  ∀ t : Nat, (opcodeOfTag t).map lengthOf =
    if t = 90 then some 9 else if t = 1 then some 11 else if t = 62 then some 9 else if t = 137 then some 11
    else none

/-- R80: the decode function at every offset of every buffer, field by field, with both errors. -/
def Obligations.DecodeAtEveryOffset : Prop :=
  ∀ (P : List Byte) (pc : Nat) (h : pc < P.length),
    decodeAt P pc =
      if P[pc] = 90 then
        if P.length - pc < 9 then .error (.truncated 90 8 (P.length - pc - 1))
        else .ok (.loadConstant (beValue ((P.drop (pc + 1)).take 4)) (beValue ((P.drop (pc + 5)).take 4)), 9)
      else if P[pc] = 1 then
        if P.length - pc < 11 then .error (.truncated 1 10 (P.length - pc - 1))
        else .ok (.readMemory (beValue ((P.drop (pc + 1)).take 4)) (beValue ((P.drop (pc + 5)).take 4))
          (beValue ((P.drop (pc + 9)).take 2)), 11)
      else if P[pc] = 62 then
        if P.length - pc < 9 then .error (.truncated 62 8 (P.length - pc - 1))
        else .ok (.writeMemory (beValue ((P.drop (pc + 1)).take 4)) (beValue ((P.drop (pc + 5)).take 4)), 9)
      else if P[pc] = 137 then
        if P.length - pc < 11 then .error (.truncated 137 10 (P.length - pc - 1))
        else .ok (.sqrt (beValue ((P.drop (pc + 1)).take 4)) (beValue ((P.drop (pc + 5)).take 2))
          (beValue ((P.drop (pc + 7)).take 4)), 11)
      else .error (.unknownOpcode P[pc])

/-- R73, R74, R75: the operands as bit ranges of the instruction's bytes read as one number `W`. -/
def Obligations.OperandsAreBitRanges : Prop :=
  (∀ bs : List Byte, bs.length = 9 → beValue bs / 2 ^ 64 = 90 →
    decodeBytes bs = .ok (.loadConstant (beValue bs / 2 ^ 32 % 2 ^ 32) (beValue bs % 2 ^ 32), 9)) ∧
  (∀ bs : List Byte, bs.length = 9 → beValue bs / 2 ^ 64 = 62 →
    decodeBytes bs = .ok (.writeMemory (beValue bs / 2 ^ 32 % 2 ^ 32) (beValue bs % 2 ^ 32), 9)) ∧
  (∀ bs : List Byte, bs.length = 11 → beValue bs / 2 ^ 80 = 1 →
    decodeBytes bs = .ok (.readMemory (beValue bs / 2 ^ 48 % 2 ^ 32) (beValue bs / 2 ^ 16 % 2 ^ 32)
      (beValue bs % 2 ^ 16), 11)) ∧
  (∀ bs : List Byte, bs.length = 11 → beValue bs / 2 ^ 80 = 137 →
    decodeBytes bs = .ok (.sqrt (beValue bs / 2 ^ 48 % 2 ^ 32) (beValue bs / 2 ^ 32 % 2 ^ 16)
      (beValue bs % 2 ^ 32), 11))

/-- Derived (30_encoding.md, the laws of its part 2, and R70): a well-formed instruction's bytes decode to it,
whatever bytes follow. -/
def Obligations.EncodedInstrDecodesToItself : Prop :=
  ∀ (i : Instr) (rest : List Byte), WellFormed i → decodeBytes (encode i ++ rest) = .ok (i, (encode i).length)

/-- Derived (30_encoding.md, the laws of its part 2): bytes that decode begin with the encoding of what they decode
to, which is well-formed. -/
def Obligations.DecodedBytesAreTheEncoding : Prop :=
  ∀ (bs : List Byte) (i : Instr) (n : Nat), decodeBytes bs = .ok (i, n) →
    WellFormed i ∧ n = lengthOf (opcodeOf i) ∧ n ≤ bs.length ∧ encode i = bs.take n

/-- R81: the encoding's length depends on the opcode alone, and a byte sequence is a sequence of encoded
instructions in at most one way. -/
def Obligations.ProgramSplitIsUnique : Prop :=
  (∀ i : Instr, (encode i).length = lengthOf (opcodeOf i)) ∧
  ∀ is js : List Instr, (∀ i ∈ is, WellFormed i) → (∀ j ∈ js, WellFormed j) →
    is.flatMap encode = js.flatMap encode → is = js

/-- Derived (95_test_vectors.md, and the table of 30_encoding.md): words written out from the spec's encodings. The
last two clauses are the model's choice, not the spec's (log entry 5): the host's word numbers bits from the first
byte up, where R16 numbers them from the last byte, and the bytes it does not give are filled with zeros up to the
longest instruction, where R80 finds the byte 89 alone truncated. -/
def Obligations.SpecWordsDecode : Prop :=
  decodeBytes [0x5A, 0, 0, 0, 5, 0, 0, 0, 0x2A] = .ok (.loadConstant 5 42, 9) ∧
  decodeBytes [0x01, 0, 0, 0, 2, 0, 0, 0, 1, 0, 5] = .ok (.readMemory 2 1 5, 11) ∧
  decodeBytes [0x3E, 0, 0, 0, 3, 0, 0, 0, 2] = .ok (.writeMemory 3 2, 9) ∧
  decodeBytes [0x89, 0, 0, 0, 2, 0, 3, 0, 0, 0, 0] = .ok (.sqrt 2 3 0, 11) ∧
  decodeTableWord 72 0x2A_00_00_00_05_00_00_00_5A = some (.loadConstant 5 42) ∧
  decodeTableWord 8 0x89 = some (.sqrt 0 0 0)

/-! ### Memory (20_memory.md) -/

/-- R53: MemRead answers the cell in bounds and the error out of bounds. -/
def Obligations.MemReadChecksBounds : Prop :=
  ∀ (s : State) (a : Int),
    (0 ≤ a ∧ a < (s.cfg.memSize : Int) → memRead s a = .ok (s.mem.read a.toNat)) ∧
    (¬(0 ≤ a ∧ a < (s.cfg.memSize : Int)) → memRead s a = .error (.memoryOutOfBounds a))

/-- R54: MemWrite changes one cell in bounds, and nothing out of bounds. -/
def Obligations.MemWriteChangesOneCell : Prop :=
  ∀ (s : State) (a v : Int),
    (0 ≤ a ∧ a < (s.cfg.memSize : Int) →
      ∃ m : Memory, memWrite s a v = .ok { s with mem := m } ∧ m.read a.toNat = v ∧
        ∀ b : Nat, (b : Int) ≠ a → m.read b = s.mem.read b) ∧
    (¬(0 ≤ a ∧ a < (s.cfg.memSize : Int)) → memWrite s a v = .error (.memoryOutOfBounds a))

/-- Derived (20_memory.md, Ordering): after any writes in order, from the zeroed memory, a cell reads as the latest
write to it, and 0 where there was none. -/
def Obligations.LatestWriteIsRead : Prop :=
  ∀ (ws : List (Nat × Int)) (a : Nat),
    Memory.read (ws.foldl (fun (m : Memory) w => m.write w.1 w.2) []) a =
      (((ws.filter fun w => w.1 = a).getLast?).map fun w => w.2).getD 0

/-- Derived (the model's canonical form, log entry 1): memories in canonical form that read the same are the same. -/
def Obligations.CanonicalMemoryIsItsReads : Prop :=
  ∀ m m' : Memory, m.wf → m'.wf → (∀ a : Nat, m.read a = m'.read a) → m = m'

/-! ### The instructions (41_memory_transfer.md, 42_integer_sqrt.md) -/

/-- R130, R131: LOAD_CONSTANT's bytes, its one write, and its fault on an out-of-range `dst`. -/
def Obligations.LoadConstantStoresImmediate : Prop :=
  ∀ (dst value : Nat) (s : State),
    encode (.loadConstant dst value) = 0x5A :: (beBytes 4 dst ++ beBytes 4 value) ∧
    (dst < s.cfg.memSize →
      ∃ m : Memory, exec (.loadConstant dst value) s = .next { s with mem := m, pc := s.pc + 9 } ∧
        m.read dst = (value : Int) ∧ ∀ a : Nat, a ≠ dst → m.read a = s.mem.read a) ∧
    (s.cfg.memSize ≤ dst →
      exec (.loadConstant dst value) s =
        .next { s with status := .faulted ⟨s.pc, 0x5A, .memoryOutOfBounds (dst : Int)⟩ })

/-- R134, R136: READ_MEMORY's bytes, its indirect load with an exact sum, and its three checks in order. -/
def Obligations.ReadMemoryLoadsThroughPointer : Prop :=
  ∀ (dst base offset : Nat) (s : State),
    encode (.readMemory dst base offset) = 0x01 :: (beBytes 4 dst ++ (beBytes 4 base ++ beBytes 2 offset)) ∧
    (base < s.cfg.memSize → InBounds s (s.mem.read base + offset) → dst < s.cfg.memSize →
      ∃ m : Memory, exec (.readMemory dst base offset) s = .next { s with mem := m, pc := s.pc + 11 } ∧
        m.read dst = s.mem.read (s.mem.read base + offset).toNat ∧
        ∀ a : Nat, a ≠ dst → m.read a = s.mem.read a) ∧
    (s.cfg.memSize ≤ base →
      exec (.readMemory dst base offset) s =
        .next { s with status := .faulted ⟨s.pc, 0x01, .memoryOutOfBounds (base : Int)⟩ }) ∧
    (base < s.cfg.memSize → ¬InBounds s (s.mem.read base + offset) →
      exec (.readMemory dst base offset) s =
        .next { s with status := .faulted ⟨s.pc, 0x01, .memoryOutOfBounds (s.mem.read base + offset)⟩ }) ∧
    (base < s.cfg.memSize → InBounds s (s.mem.read base + offset) → s.cfg.memSize ≤ dst →
      exec (.readMemory dst base offset) s =
        .next { s with status := .faulted ⟨s.pc, 0x01, .memoryOutOfBounds (dst : Int)⟩ })

/-- R138, R139: WRITE_MEMORY's bytes, its copy, and its two checks, `dst` before `src`. -/
def Obligations.WriteMemoryCopiesCell : Prop :=
  ∀ (dst src : Nat) (s : State),
    encode (.writeMemory dst src) = 0x3E :: (beBytes 4 dst ++ beBytes 4 src) ∧
    (dst < s.cfg.memSize → src < s.cfg.memSize →
      ∃ m : Memory, exec (.writeMemory dst src) s = .next { s with mem := m, pc := s.pc + 9 } ∧
        m.read dst = s.mem.read src ∧ ∀ a : Nat, a ≠ dst → m.read a = s.mem.read a) ∧
    (s.cfg.memSize ≤ dst →
      exec (.writeMemory dst src) s =
        .next { s with status := .faulted ⟨s.pc, 0x3E, .memoryOutOfBounds (dst : Int)⟩ }) ∧
    (dst < s.cfg.memSize → s.cfg.memSize ≤ src →
      exec (.writeMemory dst src) s =
        .next { s with status := .faulted ⟨s.pc, 0x3E, .memoryOutOfBounds (src : Int)⟩ })

/-- R150, R154: SQRT's bytes, the floor of the root it writes, and its four checks in order. The root is said by the
bounds of R151, not by the model's `isqrt`. -/
def Obligations.SqrtWritesFlooredRoot : Prop :=
  ∀ (dstBase dstOffset srcPtr : Nat) (s : State),
    encode (.sqrt dstBase dstOffset srcPtr) = 0x89 :: (beBytes 4 dstBase ++ (beBytes 2 dstOffset ++ beBytes 4 srcPtr)) ∧
    (srcPtr < s.cfg.memSize → InBounds s (s.mem.read srcPtr) → 0 ≤ s.mem.read (s.mem.read srcPtr).toNat →
      dstBase + dstOffset < s.cfg.memSize →
      ∃ (m : Memory) (r : Nat), exec (.sqrt dstBase dstOffset srcPtr) s = .next { s with mem := m, pc := s.pc + 11 } ∧
        (r : Int) * r ≤ s.mem.read (s.mem.read srcPtr).toNat ∧
        s.mem.read (s.mem.read srcPtr).toNat < ((r : Int) + 1) * (r + 1) ∧
        m.read (dstBase + dstOffset) = (r : Int) ∧
        ∀ a : Nat, a ≠ dstBase + dstOffset → m.read a = s.mem.read a) ∧
    (s.cfg.memSize ≤ srcPtr →
      exec (.sqrt dstBase dstOffset srcPtr) s =
        .next { s with status := .faulted ⟨s.pc, 0x89, .memoryOutOfBounds (srcPtr : Int)⟩ }) ∧
    (srcPtr < s.cfg.memSize → ¬InBounds s (s.mem.read srcPtr) →
      exec (.sqrt dstBase dstOffset srcPtr) s =
        .next { s with status := .faulted ⟨s.pc, 0x89, .memoryOutOfBounds (s.mem.read srcPtr)⟩ }) ∧
    (srcPtr < s.cfg.memSize → InBounds s (s.mem.read srcPtr) → s.mem.read (s.mem.read srcPtr).toNat < 0 →
      exec (.sqrt dstBase dstOffset srcPtr) s =
        .next { s with status := .faulted ⟨s.pc, 0x89,
          .negativeSqrt (s.mem.read srcPtr) (s.mem.read (s.mem.read srcPtr).toNat)⟩ }) ∧
    (srcPtr < s.cfg.memSize → InBounds s (s.mem.read srcPtr) → 0 ≤ s.mem.read (s.mem.read srcPtr).toNat →
      s.cfg.memSize ≤ dstBase + dstOffset →
      exec (.sqrt dstBase dstOffset srcPtr) s =
        .next { s with status := .faulted ⟨s.pc, 0x89, .memoryOutOfBounds ((dstBase : Int) + dstOffset)⟩ })

/-- R151: `isqrt v` is the unique floored root, and of a 32-bit value it is at most 65535. -/
def Obligations.IntegerRootIsExact : Prop :=
  (∀ v r : Nat, isqrt v = r ↔ r * r ≤ v ∧ v < (r + 1) * (r + 1)) ∧ ∀ v : Nat, v ≤ 2 ^ 32 - 1 → isqrt v ≤ 65535

/-- Derived (70_reset_and_hazards.md, Hazards): an operand may name the cell another names; the old values are
used. -/
def Obligations.AliasedOperandsUseOldValues : Prop :=
  (∀ (base offset : Nat) (s : State), base < s.cfg.memSize → InBounds s (s.mem.read base + offset) →
    ∃ m : Memory, exec (.readMemory base base offset) s = .next { s with mem := m, pc := s.pc + 11 } ∧
      m.read base = s.mem.read (s.mem.read base + offset).toNat) ∧
  (∀ (d : Nat) (s : State), d < s.cfg.memSize →
    ∃ m : Memory, exec (.writeMemory d d) s = .next { s with mem := m, pc := s.pc + 9 } ∧
      ∀ a : Nat, m.read a = s.mem.read a) ∧
  (∀ (dstBase dstOffset srcPtr : Nat) (s : State), srcPtr < s.cfg.memSize → InBounds s (s.mem.read srcPtr) →
    0 ≤ s.mem.read (s.mem.read srcPtr).toNat →
    dstBase + dstOffset = srcPtr ∨ ((dstBase + dstOffset : Nat) : Int) = s.mem.read srcPtr →
    ∃ m : Memory, exec (.sqrt dstBase dstOffset srcPtr) s = .next { s with mem := m, pc := s.pc + 11 } ∧
      m.read (dstBase + dstOffset) = (isqrt (s.mem.read (s.mem.read srcPtr).toNat).toNat : Int))

/-- Derived (41_memory_transfer.md, corner cases of R134 and R138): copying a cell onto itself changes nothing but
`pc`. That the memory is the same data rests on its canonical form (log entry 1). -/
def Obligations.CopyOntoItselfChangesNothing : Prop :=
  (∀ (d : Nat) (s : State), s.mem.wf → d < s.cfg.memSize →
    exec (.writeMemory d d) s = .next { s with pc := s.pc + 9 }) ∧
  (∀ (dst base offset : Nat) (s : State), s.mem.wf → base < s.cfg.memSize → dst < s.cfg.memSize →
    s.mem.read base + offset = (dst : Int) →
    exec (.readMemory dst base offset) s = .next { s with pc := s.pc + 11 })

/-- Derived (10_state.md R37, 20_memory.md R58): what each instruction leaves unchanged when `exec` answers a next
state. The configuration and the program never change; every cell but the one stored to reads as before; either the
status is unchanged and `pc` has advanced, or only the status has changed, to the instruction's error. -/
def Obligations.InstructionFrame : Prop :=
  ∀ (i : Instr) (s t : State), exec i s = .next t →
    t.cfg = s.cfg ∧ t.prog = s.prog ∧
    (∀ a : Nat, (a : Int) ≠ (match i with
        | .loadConstant dst _ => directAddr dst
        | .readMemory dst _ _ => directAddr dst
        | .writeMemory dst _ => directAddr dst
        | .sqrt dstBase dstOffset _ => offsetAddr dstBase dstOffset) → t.mem.read a = s.mem.read a) ∧
    ((t.status = s.status ∧ t.pc = s.pc + lengthOf (opcodeOf i)) ∨
     (∃ info : ErrInfo, t = { s with status := .faulted ⟨s.pc, tagByte (opcodeOf i), info⟩ }))

/-! ### Sequencing (40_sequencing.md) -/

/-- Derived (40_sequencing.md R111, R112): when the bytes at `pc` decode, a running machine's step is the meaning of what they decode to; the
step adds nothing around it (the advance past the instruction is the meaning's own). -/
def Obligations.StepRunsDecodedInstruction : Prop :=
  ∀ (s : State) (i : Instr) (n : Nat), s.status = .running → decodeAt s.prog s.pc = .ok (i, n) → step s = exec i s

/-- Derived (60_exceptions.md R171 and R173, the Decoder's part): bytes that do not decode end the run with the
record of R176, nothing else changed. -/
def Obligations.UndecodableBytesFault : Prop :=
  ∀ (s : State) (t : Byte) (rest : List Byte), s.status = .running → s.prog.drop s.pc = t :: rest →
    (t.toNat ≠ 90 → t.toNat ≠ 1 → t.toNat ≠ 62 → t.toNat ≠ 137 →
      step s = .next { s with status := .faulted ⟨s.pc, t, .unknownOpcode⟩ }) ∧
    (t.toNat = 90 ∨ t.toNat = 62 → rest.length < 8 →
      step s = .next { s with status := .faulted ⟨s.pc, t, .truncatedInstruction 8 rest.length⟩ }) ∧
    (t.toNat = 1 ∨ t.toNat = 137 → rest.length < 10 →
      step s = .next { s with status := .faulted ⟨s.pc, t, .truncatedInstruction 10 rest.length⟩ })

/-- R113: the run ends normally at `pc = L`, and in no other way; an empty program ends at its first step. -/
def Obligations.NormalEndOnlyAtProgramEnd : Prop :=
  (∀ s : State, s.status = .running → s.pc = s.prog.length → step s = .next { s with status := .done }) ∧
  (∀ s t : State, step s = .next t → t.status = .done → s.status = .running ∧ s.pc = s.prog.length) ∧
  (∀ cfg : Config, ∃ t : State, step (State.start cfg []) = .next t ∧ t.status = .done ∧
    ∀ a : Nat, t.mem.read a = 0)

/-- R114: a step that leaves the machine running has executed the decoded instruction and moved `pc` by its length,
9 or 11. -/
def Obligations.StepAdvancesByLength : Prop :=
  ∀ s t : State, step s = .next t → t.status = .running →
    ∃ (i : Instr) (n : Nat), decodeAt s.prog s.pc = .ok (i, n) ∧ exec i s = .next t ∧
      t.pc = s.pc + n ∧ (n = 9 ∨ n = 11)

/-- R116: a step that takes an error changes the status alone; the record names the failing instruction's offset and
tag byte, and what decoding raised, or it is what executing the decoded instruction took; no later instruction
runs. -/
def Obligations.ErrorChangesStatusOnly : Prop :=
  ∀ (s t : State) (e : ErrRecord), step s = .next t → t.status = .faulted e →
    s.status = .running ∧ t = { s with status := .faulted e } ∧ e.offset = s.pc ∧ s.prog[s.pc]? = some e.tag ∧
    ((∃ tag : Byte, decodeAt s.prog s.pc = .error (.unknownOpcode tag) ∧ e.info = .unknownOpcode) ∨
     (∃ (tag : Byte) (needed remaining : Nat), decodeAt s.prog s.pc = .error (.truncated tag needed remaining) ∧
       e.info = .truncatedInstruction needed remaining) ∨
     (∃ (i : Instr) (n : Nat), decodeAt s.prog s.pc = .ok (i, n) ∧ exec i s = .next t)) ∧
    ∀ u : State, step t ≠ .next u

/-- Derived (40_sequencing.md, "no step is defined from them"; the form of the stop is the model's choice, log
entry 3): an ended run takes no step. -/
def Obligations.EndedRunTakesNoStep : Prop :=
  ∀ s : State, (s.status = .done → step s = .fault .runDone) ∧
    ∀ e : ErrRecord, s.status = .faulted e → step s = .fault (.runFaulted e)

/-- Derived (40_sequencing.md, determinism): a running machine whose `pc` lies within its program always steps;
nothing stops it and nothing is refused. -/
def Obligations.RunningMachineAlwaysSteps : Prop :=
  ∀ s : State, s.status = .running → s.pc ≤ s.prog.length → ∃ t : State, step s = .next t

/-- Derived (40_sequencing.md, "pc never exceeds L"): every step keeps `pc` within the program. -/
def Obligations.StepKeepsPcWithinProgram : Prop :=
  ∀ s t : State, PcWithin s → step s = .next t → PcWithin t

/-- Derived (10_state.md R32, 20_memory.md R64, 00_scope.md R7): no step changes the program or the memory size. -/
def Obligations.ProgramAndSizeNeverChange : Prop :=
  ∀ s t : State, step s = .next t → t.prog = s.prog ∧ t.cfg = s.cfg

/-- Derived (the model's canonical form, log entry 1, over 10_state.md R34): every step keeps memory canonical and
within the memory size. -/
def Obligations.StepKeepsMemoryCanonical : Prop :=
  ∀ s t : State, MemoryCanonical s → step s = .next t → MemoryCanonical t

/-- Derived (10_state.md, the value-range invariant, an inference of the spec): every step from a state whose cells
are in `[0, 2^32 - 1]` leaves them there, and so does every run from its start. -/
def Obligations.StepKeepsCellsInRange : Prop :=
  (∀ s t : State, CellsInRange s → step s = .next t → CellsInRange t) ∧
  ∀ (cfg : Config) (P : List Byte) (k : Nat), CellsInRange (runSteps k (State.start cfg P))

/-- Derived (10_state.md, start-of-run values): the start of a run meets every invariant. `State.reset` is such a
start, with 1024 cells; that its program is empty is the model's choice (log entry 5). -/
def Obligations.StartMeetsInvariants : Prop :=
  State.reset = State.start { memSize := 1024 } [] ∧
  ∀ (cfg : Config) (P : List Byte),
    PcWithin (State.start cfg P) ∧ MemoryCanonical (State.start cfg P) ∧ CellsInRange (State.start cfg P)

/-- R42: the start of a run. -/
def Obligations.RunStartsZeroed : Prop :=
  ∀ (cfg : Config) (P : List Byte), (State.start cfg P).pc = 0 ∧ (∀ a : Nat, (State.start cfg P).mem.read a = 0) ∧
    (State.start cfg P).status = .running ∧ (State.start cfg P).prog = P

/-- Derived (42_integer_sqrt.md, "No run from the start state can reach it", an inference of the spec): no
NegativeSqrt from a state whose cells are in range, and none in any run from its start. -/
def Obligations.NegativeSqrtNeverReached : Prop :=
  (∀ (s t : State) (e : ErrRecord), CellsInRange s → step s = .next t → t.status = .faulted e →
    e.kind ≠ .negativeSqrt) ∧
  ∀ (cfg : Config) (P : List Byte) (k : Nat) (e : ErrRecord),
    (runSteps k (State.start cfg P)).status = .faulted e → e.kind ≠ .negativeSqrt

/-- Derived (40_sequencing.md, "Every run ends", an inference of the spec): a run still running after `k` steps has
`k <= floor(L / 9)`, and after `floor(L / 9) + 1` steps it has ended. -/
def Obligations.EveryRunEnds : Prop :=
  ∀ (cfg : Config) (P : List Byte),
    (∀ k : Nat, (runSteps k (State.start cfg P)).status = .running → k ≤ P.length / 9) ∧
    Ended (runSteps (P.length / 9 + 1) (State.start cfg P))

/-- Derived (40_sequencing.md, "End of run, defined"): a `done` run consumed every byte of its program as whole
well-formed instructions that all executed in order; a `faulted` run executed those before the failing offset. -/
def Obligations.EndedRunExecutedItsInstructions : Prop :=
  ∀ (cfg : Config) (P : List Byte) (k : Nat),
    ((runSteps k (State.start cfg P)).status = .done →
      ∃ is : List Instr, (∀ i ∈ is, WellFormed i) ∧ P = is.flatMap encode ∧
        runSteps k (State.start cfg P) = runTuples is (State.start cfg P)) ∧
    ∀ e : ErrRecord, (runSteps k (State.start cfg P)).status = .faulted e →
      ∃ (is : List Instr) (rest : List Byte), (∀ i ∈ is, WellFormed i) ∧ P = is.flatMap encode ++ rest ∧
        e.offset = (is.flatMap encode).length ∧
        (runTuples is (State.start cfg P)).status = .done ∧
        (runSteps k (State.start cfg P)).mem = (runTuples is (State.start cfg P)).mem

/-! ### Errors (60_exceptions.md) -/

/-- Derived (60_exceptions.md R170 and R176): which fields a Decoder record has, by its kind; the codes of Decoder and
Encoder records, which their diagnostics carry. -/
def Obligations.ErrorRecordFieldsByKind : Prop :=
  (∀ e : ErrRecord,
    (e.address?.isSome ↔ e.kind = .memoryOutOfBounds ∨ e.kind = .negativeSqrt) ∧
    (e.value?.isSome ↔ e.kind = .negativeSqrt) ∧
    (e.needed?.isSome ↔ e.kind = .truncatedInstruction) ∧
    (e.remaining?.isSome ↔ e.kind = .truncatedInstruction) ∧
    e.kind ≠ .malformedOperand ∧
    (e.code = 1 ↔ e.kind = .unknownOpcode) ∧ (e.code = 3 ↔ e.kind = .truncatedInstruction) ∧
    (e.code = 4 ↔ e.kind = .memoryOutOfBounds) ∧ (e.code = 5 ↔ e.kind = .negativeSqrt)) ∧
  (∀ e : AsmError, (e.code = 1 ↔ e.kind = .unknownOpcode) ∧ (e.code = 2 ↔ e.kind = .malformedOperand)) ∧
  (∀ e : ErrRecord, diagnosticCode (.runError e) = some e.code) ∧
  ∀ e : AsmError, diagnosticCode (.encoderError e) = some e.code

/-! ### The Encoder (30_encoding.md, part 2) -/

/-- R94: which tokens are numeric, and their values. -/
def Obligations.NumericTokenGrammar : Prop :=
  ∀ (t : Text) (v : Int), tokenValue t = some v ↔
    ∃ sign ds : Text, t = sign ++ ds ∧ (sign = [] ∨ sign = [0x2B] ∨ sign = [0x2D]) ∧ ds ≠ [] ∧
      (∀ d ∈ ds, 0x30 ≤ d.toNat ∧ d.toNat ≤ 0x39) ∧
      v = (if sign = [0x2D] then -1 else 1) *
        ∑ j ∈ Finset.range ds.length, (((ds.getD j 0).toNat - 0x30 : Nat) : Int) * 10 ^ (ds.length - 1 - j)

/-- R95, R96, R97, R98: a line's checks in their order, and the bytes of a line that passes them. -/
def Obligations.LineChecksThenBytes : Prop :=
  ∀ (s t : Text) (ts : List Text), tokens s = t :: ts →
    ((∀ v : Int, tokenValue t = some v → v ≠ 90 ∧ v ≠ 1 ∧ v ≠ 62 ∧ v ≠ 137) →
      assembleLine s = .error .unknownOpcode) ∧
    ∀ op : Opcode, tokenValue t = some (tagOf op : Int) →
      (ts.length ≠ (match op with | .loadConstant => 2 | .readMemory => 3 | .writeMemory => 2 | .sqrt => 3) →
        assembleLine s = .error .malformedOperand) ∧
      (ts.length = (widthsOf op).length →
        (∃ (j w : Nat) (x : Text), (widthsOf op)[j]? = some w ∧ ts[j]? = some x ∧
          ∀ v : Int, tokenValue x = some v → ¬(0 ≤ v ∧ v ≤ 256 ^ w - 1)) →
        assembleLine s = .error .malformedOperand) ∧
      (∀ vs : List Nat, ts.map tokenValue = vs.map (fun (v : Nat) => some (v : Int)) →
        vs.length = (widthsOf op).length →
        (∀ (j w v : Nat), (widthsOf op)[j]? = some w → vs[j]? = some v → v ≤ 256 ^ w - 1) →
        ∃ i : Instr, assembleLine s = .ok i ∧ opcodeOf i = op ∧ operandsOf i = vs ∧
          encode i = tagByte op :: (List.zipWith beBytes (widthsOf op) vs).flatten ∧
          (encode i).length = lengthOf op)

/-- R99: the Encoder's result is the bytes and records of its instruction lines in source order, or the error of the
first line that fails, and nothing else. What `physicalLines`, `trim`, `isSkipped` and `tokens` compute is said by
PhysicalLinesAreCutAtLineFeeds, TrimStripsTheEnds, BlankAndCommentLines and TokensAreMaximalRuns. -/
def Obligations.EncoderIsItsLinesInOrder : Prop :=
  (∀ (text : Text) (out : List Byte) (log : List LogRecord), encodeProgram text = .ok (out, log) ↔
    (∀ raw ∈ physicalLines text, isSkipped (trim raw) = true ∨ ∃ i : Instr, assembleLine (trim raw) = .ok i) ∧
    out = (lineTuples text).flatMap encode ∧
    log = (physicalLines text).filterMap fun raw =>
      (lineTuple raw).map fun i => { instruction := trim raw, binary := hex (encode i) }) ∧
  (∀ (text : Text) (e : AsmError), encodeProgram text = .error e ↔
    ∃ (before : List Text) (raw : Text) (after : List Text), physicalLines text = before ++ raw :: after ∧
      (∀ r ∈ before, isSkipped (trim r) = true ∨ ∃ i : Instr, assembleLine (trim r) = .ok i) ∧
      isSkipped (trim raw) = false ∧ assembleLine (trim raw) = .error e.kind ∧
      e.line = before.length + 1 ∧ e.text = trim raw) ∧
  (∀ (raw : Text) (i : Instr), lineTuple raw = some i ↔ isSkipped (trim raw) = false ∧ assembleLine (trim raw) = .ok i) ∧
  ∀ text : Text, lineTuples text = (physicalLines text).filterMap lineTuple

/-- Derived (30_encoding.md, the laws of its part 2): a line that assembles gives a well-formed instruction, whose
bytes decode to it. -/
def Obligations.AssembledLineDecodesToItsInstr : Prop :=
  ∀ (s : Text) (i : Instr), assembleLine s = .ok i →
    WellFormed i ∧ decodeAt (encode i) 0 = .ok (i, (encode i).length)

/-- Derived (30_encoding.md, the laws of its part 2): every well-formed instruction has a line of canonical spelling
that assembles to it. -/
def Obligations.CanonicalLineAssembles : Prop :=
  ∀ i : Instr, WellFormed i → trim (canonicalLine i) = canonicalLine i ∧ assembleLine (canonicalLine i) = .ok i

/-- Derived (30_encoding.md, "Comments and blanks change nothing", an inference of the spec): inserting one blank or
comment line before or between lines changes neither bytes nor log, and of an error only its line number; appending
one after the last line, which need not end in a line feed, changes nothing. -/
def Obligations.CommentsAndBlanksChangeNothing : Prop :=
  (∀ before line after : Text, (before = [] ∨ before.getLast? = some lineFeed) → lineFeed ∉ line →
    isSkipped (trim line) = true →
    (∀ (out : List Byte) (log : List LogRecord),
      encodeProgram (before ++ line ++ lineFeed :: after) = .ok (out, log) ↔
        encodeProgram (before ++ after) = .ok (out, log)) ∧
    ∀ e : AsmError, encodeProgram (before ++ after) = .error e →
      ∃ e' : AsmError, encodeProgram (before ++ line ++ lineFeed :: after) = .error e' ∧
        e'.kind = e.kind ∧ e'.text = e.text) ∧
  ∀ text line : Text, lineFeed ∉ line → isSkipped (trim line) = true →
    encodeProgram (text ++ lineFeed :: line) = encodeProgram text

/-- Derived (30_encoding.md, the laws of its part 2): executing the Encoder's bytes ends as executing the line tuples
directly does: the same memory, the same `pc`, the same outcome; only the program buffer differs. That `runProgram`
takes a bounded number of steps is the model's choice (log entry 20). -/
def Obligations.AssembledProgramRunsAsItsTuples : Prop :=
  ∀ (cfg : Config) (text : Text) (out : List Byte) (log : List LogRecord), encodeProgram text = .ok (out, log) →
    runProgram cfg out = { runTuples (lineTuples text) (State.start cfg []) with prog := out }

/-- Derived (30_encoding.md R100, the hex form): two digits `0`-`9`, `a`-`f` per byte, in byte order, the high half of
the byte first, and nothing else; from them the bytes can be told. -/
def Obligations.HexSpellsBytes : Prop :=
  hex [] = [] ∧ (∀ (b : Byte) (bs : List Byte),
    hex (b :: bs) = hexDigit (b.toNat / 16) :: hexDigit (b.toNat % 16) :: hex bs) ∧
  (∀ n : Nat, (n < 10 → (hexDigit n).toNat = 0x30 + n) ∧
    (10 ≤ n → n < 16 → (hexDigit n).toNat = 0x61 + (n - 10))) ∧
  (∀ bs : List Byte, (hex bs).length = 2 * bs.length ∧
    ∀ c ∈ hex bs, (0x30 ≤ c.toNat ∧ c.toNat ≤ 0x39) ∨ (0x61 ≤ c.toNat ∧ c.toNat ≤ 0x66)) ∧
  ∀ bs bs' : List Byte, hex bs = hex bs' → bs = bs'

/-! ### Report and invocations (70_reset_and_hazards.md) -/

/-- Derived (70_reset_and_hazards.md R213, 30_encoding.md R94): the decimal spelling of a number is digits alone, has
its value and no leading zero. -/
def Obligations.DecimalSpellsValue : Prop :=
  ∀ n : Nat, tokenValue (decimal n) = some (n : Int) ∧ (∀ c ∈ decimal n, 0x30 ≤ c.toNat ∧ c.toNat ≤ 0x39) ∧
    ((decimal n).head? = some 0x30 → decimal n = [0x30])

/-- R211: the form of a range string; any other string is BadRange, code 6, and runs nothing. -/
def Obligations.RangeStringForm : Prop :=
  (∀ (t : Text) (r : Range), parseRange t = some r ↔
    ∃ a b : Text, t = a ++ colon :: b ∧ tokenValue a = some r.first ∧ tokenValue b = some r.limit) ∧
  (∀ (cfg : Config) (P : List Byte) (t : Text), parseRange t = none →
    decoderInvocation cfg P t = { written := none, exit := .nonZero, diagnostic := some .badRange }) ∧
  diagnosticCode .badRange = some 6

/-- Derived (70_reset_and_hazards.md R212, the mapping itself): the report of a range inside memory is each address
with its cell, ascending, and empty for `start >= end`; a range that leaves memory fails at its first bad address. -/
def Obligations.ReportIsAscendingMapping : Prop :=
  ∀ (s : State) (r : Range),
    ((∀ a : Int, r.first ≤ a → a < r.limit → InBounds s a) →
      report s r = .ok ((List.range (r.limit - r.first).toNat).map fun (k : Nat) =>
        (r.first + (k : Int), s.mem.read (r.first + (k : Int)).toNat))) ∧
    ∀ a : Int, r.first ≤ a → a < r.limit → ¬InBounds s a → (∀ b : Int, r.first ≤ b → b < a → InBounds s b) →
      report s r = .error (.memoryOutOfBounds a)

/-- Derived (70_reset_and_hazards.md R203, R209, R210, R213, 60_exceptions.md R178): the Decoder's invocation.
Something is written exactly on exit status 0; what is written is the report of a run that ended `done`, a member
`memory[<address>]` with its integer per entry; a faulted run and a bad report range write nothing. That the
diagnostic is never `notEnded` rests on R119, an inference of the spec, and on the model's step budget, log
entry 20. -/
def Obligations.DecoderWritesOnlyGoodReports : Prop :=
  ∀ (cfg : Config) (P : List Byte) (rangeText : Text),
    ((decoderInvocation cfg P rangeText).exit = .zero ↔ (decoderInvocation cfg P rangeText).written.isSome) ∧
    ((decoderInvocation cfg P rangeText).exit = .nonZero ↔ (decoderInvocation cfg P rangeText).diagnostic.isSome) ∧
    (decoderInvocation cfg P rangeText).diagnostic ≠ some .notEnded ∧
    (∀ out : JsonObject, (decoderInvocation cfg P rangeText).written = some out ↔
      ∃ (r : Range) (entries : List (Int × Int)), parseRange rangeText = some r ∧ (runProgram cfg P).status = .done ∧
        report (runProgram cfg P) r = .ok entries ∧
        out = entries.map fun entry =>
          ([0x6D, 0x65, 0x6D, 0x6F, 0x72, 0x79, 0x5B] ++ decimal entry.1.toNat ++ [0x5D], JsonScalar.int entry.2)) ∧
    (∀ (r : Range) (e : ErrRecord), parseRange rangeText = some r → (runProgram cfg P).status = .faulted e →
      decoderInvocation cfg P rangeText =
        { written := none, exit := .nonZero, diagnostic := some (.runError e) })

/-- Derived (30_encoding.md R99, 70_reset_and_hazards.md R209, R210 and R215): the Encoder's invocation writes the
binary and the log, an object with the members `instruction` and `binary` per record, or nothing. -/
def Obligations.EncoderWritesAllOrNothing : Prop :=
  ∀ text : Text,
    (∀ (out : List Byte) (log : List LogRecord), encodeProgram text = .ok (out, log) →
      encoderInvocation text = {
        written := some (out, log.map fun r =>
          [([0x69, 0x6E, 0x73, 0x74, 0x72, 0x75, 0x63, 0x74, 0x69, 0x6F, 0x6E], JsonScalar.str r.instruction),
           ([0x62, 0x69, 0x6E, 0x61, 0x72, 0x79], JsonScalar.str r.binary)])
        exit := .zero
        diagnostic := none }) ∧
    ∀ e : AsmError, encodeProgram text = .error e →
      encoderInvocation text = { written := none, exit := .nonZero, diagnostic := some (.encoderError e) }

/-! ### The Encoder's reading of a text (30_encoding.md, part 2) -/

/-- Derived (30_encoding.md R91; the empty piece after a final line feed is log entry 12): the physical lines of a text
are its pieces between line feeds, in order; one line at least. -/
def Obligations.PhysicalLinesAreCutAtLineFeeds : Prop :=
  ∀ (text : Text) (lines : List Text), physicalLines text = lines ↔
    lines ≠ [] ∧ (∀ line ∈ lines, (0x0A : Byte) ∉ line) ∧ text = List.intercalate [0x0A] lines

/-- Derived (30_encoding.md R91): trimming removes the whitespace bytes at both ends, all of them and nothing else. -/
def Obligations.TrimStripsTheEnds : Prop :=
  ∀ t u : Text, trim t = u ↔ ∃ a b : Text, t = a ++ u ++ b ∧ (∀ x ∈ a ++ b, x ∈ whitespace) ∧
    (∀ x : Byte, u.head? = some x → x ∉ whitespace) ∧ ∀ x : Byte, u.getLast? = some x → x ∉ whitespace

/-- Derived (30_encoding.md R92): a physical line is skipped when it is whitespace alone or its first other byte is
`#`; a skipped line gives no byte and no record and is counted; a token with a `#` in it is not numeric. -/
def Obligations.BlankAndCommentLines : Prop :=
  (∀ raw : Text, isSkipped (trim raw) = true ↔
    (∀ x ∈ raw, x ∈ whitespace) ∨ ∃ a rest : Text, raw = a ++ 0x23 :: rest ∧ ∀ x ∈ a, x ∈ whitespace) ∧
  (∀ (st : EncoderState) (raw : Text), isSkipped (trim raw) = true →
    encodeLine st raw = .ok { out := st.out, log := st.log, line := st.line + 1 }) ∧
  ∀ t : Text, 0x23 ∈ t → tokenValue t = none

/-- Derived (30_encoding.md R93): the tokens of a line are what stands between its maximal runs of whitespace. Each
token is followed by its gap, nonempty between two tokens. A line that is not skipped has an opcode token. -/
def Obligations.TokensAreMaximalRuns : Prop :=
  (∀ (s : Text) (ts : List Text), tokens s = ts ↔ ∃ (lead : Text) (gaps : List Text),
    s = lead ++ (ts.zip gaps).flatMap (fun p => p.1 ++ p.2) ∧ gaps.length = ts.length ∧
    (∀ g ∈ lead :: gaps, ∀ x ∈ g, x ∈ whitespace) ∧ (∀ g ∈ gaps.dropLast, g ≠ []) ∧
    ∀ t ∈ ts, t ≠ [] ∧ ∀ x ∈ t, x ∉ whitespace) ∧
  ∀ raw : Text, isSkipped (trim raw) = false → tokens (trim raw) ≠ []

/-! ### The members of the outputs (70_reset_and_hazards.md) -/

/-- Derived (70_reset_and_hazards.md R212, R213): the report of a range inside memory has, for each address in
ascending order, the member `memory[<address in decimal>]` with the cell's value; no key comes twice. -/
def Obligations.ReportJsonKeysAndValues : Prop :=
  ∀ (s : State) (r : Range), (∀ a : Int, r.first ≤ a → a < r.limit → InBounds s a) →
    ∃ entries : List (Int × Int), report s r = .ok entries ∧
      reportJson entries = ((List.range (r.limit - r.first).toNat).map fun (k : Nat) =>
        ([0x6D, 0x65, 0x6D, 0x6F, 0x72, 0x79, 0x5B] ++ decimal (r.first + (k : Int)).toNat ++ [0x5D],
          JsonScalar.int (s.mem.read (r.first + (k : Int)).toNat))) ∧
      ((reportJson entries).map fun m => m.1).Nodup

/-- Derived (30_encoding.md R100, 70_reset_and_hazards.md R215): the log of a text that encodes has one object per
instruction line, in order: `instruction` with the trimmed line, then `binary` with the hex of its bytes. -/
def Obligations.LogJsonMembersPerLine : Prop :=
  ∀ (text : Text) (out : List Byte) (log : List LogRecord), encodeProgram text = .ok (out, log) →
    logJson log = (physicalLines text).filterMap fun raw => (lineTuple raw).map fun i =>
      [([0x69, 0x6E, 0x73, 0x74, 0x72, 0x75, 0x63, 0x74, 0x69, 0x6F, 0x6E], JsonScalar.str (trim raw)),
       ([0x62, 0x69, 0x6E, 0x61, 0x72, 0x79], JsonScalar.str (hex (encode i)))]
end

