-- ==== Sys2Proof/Laws/Encoding.lean ====
section
/-! SUPPORT. Laws of big-endian fields and of the decoder's answers. -/

namespace Sys2Proof

@[simp] theorem beBytes_length (k v : Nat) : (beBytes k v).length = k := by
  induction k with
  | zero => rfl
  | succ k ih => simp [beBytes, ih]

/-- The first `k` bytes of what `beBytes k v` begins read back as `v` modulo `256 ^ k`. -/
theorem beValue_beBytes_mod (k v : Nat) : beValue (beBytes k v) = v % 256 ^ k := by
  induction k with
  | zero => simp [beBytes, beValue, Nat.mod_one]
  | succ k ih =>
    simp only [beBytes, beValue, beBytes_length, ih, BitVec.toNat_ofNat]
    have h : v % 256 ^ (k + 1) = v % 256 ^ k + 256 ^ k * (v / 256 ^ k % 256) := by
      rw [Nat.pow_succ, Nat.mod_mul]
    rw [h]
    ring

theorem beValue_lt (bs : List Byte) : beValue bs < 256 ^ bs.length := by
  induction bs with
  | nil => simp [beValue]
  | cons b bs ih =>
    have hb : b.toNat < 256 := b.isLt
    simp only [beValue, List.length_cons, Nat.pow_succ]
    calc b.toNat * 256 ^ bs.length + beValue bs
        < b.toNat * 256 ^ bs.length + 256 ^ bs.length := by omega
      _ = (b.toNat + 1) * 256 ^ bs.length := by ring
      _ ≤ 256 * 256 ^ bs.length := Nat.mul_le_mul_right _ (by omega)
      _ = 256 ^ bs.length * 256 := by ring

/-- The opcode found for a tag has that tag. -/
theorem opcodeOfTag_some {t : Nat} {op : Opcode} (h : opcodeOfTag t = some op) : tagOf op = t := by
  simpa using List.find?_some h

@[simp] theorem opcodeOfTag_tagOf (op : Opcode) : opcodeOfTag (tagOf op) = some op := by cases op <;> rfl

@[simp] theorem tagByte_toNat (op : Opcode) : (tagByte op).toNat = tagOf op := by cases op <;> rfl

theorem lengthOf_cases (op : Opcode) : lengthOf op = 9 ∨ lengthOf op = 11 := by
  cases op <;> simp [lengthOf, widthsOf]

@[simp] theorem opcodeOf_instrOf (op : Opcode) (v : Nat → Nat) : opcodeOf (instrOf op v) = op := by cases op <;> rfl

/-- The decoder on a known tag: truncated, or the instruction of that opcode. -/
theorem decodeBytes_tagByte (op : Opcode) (rest : List Byte) :
    decodeBytes (tagByte op :: rest) =
      if rest.length < lengthOf op - 1 then .error (.truncated (tagByte op) (lengthOf op - 1) rest.length)
      else .ok (instrOf op (operandAt op rest), lengthOf op) := by
  simp only [decodeBytes, tagByte_toNat, opcodeOfTag_tagOf]

/-- Everything a successful decode says: the tag, its opcode, the length, and where the operands come from. -/
theorem decodeBytes_ok {bs : List Byte} {i : Instr} {n : Nat} (h : decodeBytes bs = .ok (i, n)) :
    ∃ op rest, bs = tagByte op :: rest ∧ i = instrOf op (operandAt op rest) ∧ n = lengthOf op ∧
      lengthOf op - 1 ≤ rest.length := by
  cases bs with
  | nil => cases h
  | cons t rest =>
    rcases hop : opcodeOfTag t.toNat with _ | op
    · simp [decodeBytes, hop] at h
    · by_cases hl : rest.length < lengthOf op - 1
      · simp [decodeBytes, hop, hl] at h
      · simp only [decodeBytes, hop, hl, if_false, Except.ok.injEq, Prod.mk.injEq] at h
        refine ⟨op, rest, ?_, h.1.symm, h.2.symm, by omega⟩
        rw [tagByte, opcodeOfTag_some hop]
        simp

end Sys2Proof
end

