-- ==== Sys2Proof/Laws/State.lean ====
section
/-! SUPPORT. What each state update leaves in each field: one lemma per field and update, true by `rfl`. -/

namespace Sys2Proof.Machine

variable (s : State) (op : Opcode) (tag : Byte) (info : ErrInfo) (bs : List Byte) (cfg : Config) (P : List Byte)

@[simp] theorem advance_cfg : (advance op s).cfg = s.cfg := rfl
@[simp] theorem advance_prog : (advance op s).prog = s.prog := rfl
@[simp] theorem advance_pc : (advance op s).pc = s.pc + lengthOf op := rfl
@[simp] theorem advance_mem : (advance op s).mem = s.mem := rfl
@[simp] theorem advance_status : (advance op s).status = s.status := rfl

@[simp] theorem raise_cfg : (raise s tag info).cfg = s.cfg := rfl
@[simp] theorem raise_prog : (raise s tag info).prog = s.prog := rfl
@[simp] theorem raise_pc : (raise s tag info).pc = s.pc := rfl
@[simp] theorem raise_mem : (raise s tag info).mem = s.mem := rfl
@[simp] theorem raise_status :
    (raise s tag info).status = .faulted { offset := s.pc, tag := tag, info := info } := rfl

@[simp] theorem finish_cfg : (finish s).cfg = s.cfg := rfl
@[simp] theorem finish_prog : (finish s).prog = s.prog := rfl
@[simp] theorem finish_pc : (finish s).pc = s.pc := rfl
@[simp] theorem finish_mem : (finish s).mem = s.mem := rfl
@[simp] theorem finish_status : (finish s).status = .done := rfl

@[simp] theorem placeAtPc_cfg : (placeAtPc s bs).cfg = s.cfg := rfl
@[simp] theorem placeAtPc_pc : (placeAtPc s bs).pc = s.pc := rfl
@[simp] theorem placeAtPc_mem : (placeAtPc s bs).mem = s.mem := rfl
@[simp] theorem placeAtPc_status : (placeAtPc s bs).status = .running := rfl

@[simp] theorem start_cfg : (State.start cfg P).cfg = cfg := rfl
@[simp] theorem start_prog : (State.start cfg P).prog = P := rfl
@[simp] theorem start_pc : (State.start cfg P).pc = 0 := rfl
@[simp] theorem start_mem : (State.start cfg P).mem = [] := rfl
@[simp] theorem start_status : (State.start cfg P).status = .running := rfl

end Sys2Proof.Machine
end

