-- ==== Sys2Proof/Laws/Memory.lean ====
section
/-! SUPPORT. Laws of the data memory: a write changes one cell, every operation keeps the canonical form. -/

namespace Sys2Proof.Machine

theorem read_clear (m : Memory) (a b : Nat) : (m.clear a).read b = if a = b then 0 else m.read b := by
  induction m with
  | nil => simp [Memory.clear, Memory.read]
  | cons c m ih =>
    obtain ⟨k, w⟩ := c
    by_cases h : k = a
    · by_cases h' : a = b <;> simp_all [Memory.clear, Memory.read]
    · by_cases h' : k = b
      · have : a ≠ b := by omega
        simp_all [Memory.clear, Memory.read]
      · simp [Memory.clear, Memory.read, h, h', ih]

theorem not_listed_clear (m : Memory) (a : Nat) : ∀ c ∈ m.clear a, c.1 ≠ a := by
  induction m with
  | nil => simp [Memory.clear]
  | cons c m ih =>
    obtain ⟨k, w⟩ := c
    by_cases h : k = a
    · simpa only [Memory.clear, h, if_true] using ih
    · simp only [Memory.clear, h, if_false, List.forall_mem_cons]
      exact ⟨h, ih⟩

theorem read_insert (m : Memory) (a b : Nat) (v : Int) (fresh : ∀ c ∈ m, c.1 ≠ a) :
    (m.insert (a, v)).read b = if a = b then v else m.read b := by
  induction m with
  | nil => simp [Memory.insert, Memory.read]
  | cons d m ih =>
    obtain ⟨k, w⟩ := d
    have hk : k ≠ a := fresh (k, w) (by simp)
    have ih := ih fun c hc => fresh c (List.mem_cons_of_mem _ hc)
    by_cases h : a < k
    · simp [Memory.insert, Memory.read, h]
    · by_cases h' : k = b
      · subst h'
        simp [Memory.insert, Memory.read, h, Ne.symm hk]
      · simp [Memory.insert, Memory.read, h, h', ih]

/-- Reading after a write: the value written at its cell, every other cell as before. -/
theorem read_write (m : Memory) (a b : Nat) (v : Int) :
    (m.write a v).read b = if a = b then v else m.read b := by
  by_cases hv : v = 0
  · simp [Memory.write, hv, read_clear]
  · rw [Memory.write, if_neg hv, read_insert _ _ _ _ (not_listed_clear m a), read_clear]
    split <;> rfl

@[simp] theorem read_write_same (m : Memory) (a : Nat) (v : Int) : (m.write a v).read a = v := by
  simp [read_write]

theorem read_write_other (m : Memory) (a b : Nat) (v : Int) (h : a ≠ b) :
    (m.write a v).read b = m.read b := by simp [read_write, h]

theorem mem_clear (m : Memory) (a : Nat) : ∀ c ∈ m.clear a, c ∈ m := by
  induction m with
  | nil => simp [Memory.clear]
  | cons c m ih =>
    intro d hd
    obtain ⟨k, w⟩ := c
    by_cases h : k = a
    · exact List.mem_cons_of_mem _ (ih d (by simpa [Memory.clear, h] using hd))
    · rcases List.mem_cons.1 (by simpa [Memory.clear, h] using hd : d ∈ (k, w) :: Memory.clear m a) with rfl | hd'
      · exact List.mem_cons_self
      · exact List.mem_cons_of_mem _ (ih d hd')

theorem mem_insert (m : Memory) (c d : Nat × Int) : d ∈ m.insert c ↔ d = c ∨ d ∈ m := by
  induction m with
  | nil => simp [Memory.insert]
  | cons e m ih =>
    by_cases h : c.1 < e.1
    · simp [Memory.insert, h]
    · simp [Memory.insert, h, ih, or_left_comm]

/-- A write lists no cell but the written one and those listed before. -/
theorem mem_write (m : Memory) (a : Nat) (v : Int) (c : Nat × Int) (h : c ∈ m.write a v) :
    c = (a, v) ∨ c ∈ m := by
  by_cases hv : v = 0
  · exact .inr (mem_clear m a c (by simpa [Memory.write, hv] using h))
  · rcases (mem_insert _ _ _).1 (by simpa [Memory.write, hv] using h) with h | h
    · exact .inl h
    · exact .inr (mem_clear m a c h)

theorem pairwise_clear (m : Memory) (a : Nat) (h : m.Pairwise fun c d => c.1 < d.1) :
    (m.clear a).Pairwise fun c d => c.1 < d.1 := by
  induction m with
  | nil => simp [Memory.clear]
  | cons c m ih =>
    obtain ⟨k, w⟩ := c
    obtain ⟨hc, hm⟩ := List.pairwise_cons.1 h
    by_cases hk : k = a
    · simpa [Memory.clear, hk] using ih hm
    · simpa [Memory.clear, hk] using ⟨fun x y hxy => hc (x, y) (mem_clear m a _ hxy), ih hm⟩

theorem pairwise_insert (m : Memory) (a : Nat) (v : Int) (fresh : ∀ c ∈ m, c.1 ≠ a)
    (h : m.Pairwise fun c d => c.1 < d.1) : (m.insert (a, v)).Pairwise fun c d => c.1 < d.1 := by
  induction m with
  | nil => simp [Memory.insert]
  | cons d m ih =>
    obtain ⟨k, w⟩ := d
    obtain ⟨hd, hm⟩ := List.pairwise_cons.1 h
    have hk : k ≠ a := fresh (k, w) (by simp)
    by_cases hak : a < k
    · rw [Memory.insert, if_pos hak]
      refine List.pairwise_cons.2 ⟨fun c hc => ?_, h⟩
      rcases List.mem_cons.1 hc with rfl | hc
      · exact hak
      · exact Nat.lt_trans hak (hd c hc)
    · rw [Memory.insert, if_neg hak]
      refine List.pairwise_cons.2 ⟨fun c hc => ?_, ih (fun c hc => fresh c (List.mem_cons_of_mem _ hc)) hm⟩
      rcases (mem_insert m _ _).1 hc with rfl | hc
      · simp only; omega
      · exact hd c hc

/-- Every write keeps the canonical form. -/
theorem wf_write (m : Memory) (a : Nat) (v : Int) (h : m.wf) : (m.write a v).wf := by
  refine ⟨?_, fun c hc => ?_⟩
  · by_cases hv : v = 0
    · simpa [Memory.write, hv] using pairwise_clear m a h.1
    · simpa [Memory.write, hv] using pairwise_insert _ a v (not_listed_clear m a) (pairwise_clear m a h.1)
  · by_cases hv : v = 0
    · exact h.2 c (mem_clear m a c (by simpa [Memory.write, hv] using hc))
    · rcases mem_write m a v c hc with rfl | hc
      · exact hv
      · exact h.2 c hc

theorem reset_memory_wf : State.reset.mem.wf := by decide

@[simp] theorem read_nil (a : Nat) : Memory.read [] a = 0 := rfl

end Sys2Proof.Machine
end

