-- ==== Sys2Proof/Laws/Ops.lean ====
section
/-! SUPPORT. What each shared operation over the state can answer, said once. -/

namespace Sys2Proof.Machine

theorem memRead_inBounds {s : State} {a : Int} (h : InBounds s a) : memRead s a = .ok (s.mem.read a.toNat) :=
  if_pos h

theorem memRead_outOfBounds {s : State} {a : Int} (h : ¬InBounds s a) :
    memRead s a = .error (.memoryOutOfBounds a) := if_neg h

/-- A read that answers a value was in bounds and answered that cell's value. -/
theorem memRead_ok {s : State} {a v : Int} (h : memRead s a = .ok v) : InBounds s a ∧ v = s.mem.read a.toNat := by
  by_cases hb : InBounds s a
  · rw [memRead_inBounds hb] at h
    exact ⟨hb, (Except.ok.inj h).symm⟩
  · rw [memRead_outOfBounds hb] at h
    cases h

/-- A read that fails was out of bounds and reports its address. -/
theorem memRead_error {s : State} {a : Int} {e : ErrInfo} (h : memRead s a = .error e) :
    ¬InBounds s a ∧ e = .memoryOutOfBounds a := by
  by_cases hb : InBounds s a
  · rw [memRead_inBounds hb] at h
    cases h
  · rw [memRead_outOfBounds hb] at h
    exact ⟨hb, (Except.error.inj h).symm⟩

theorem memWrite_inBounds {s : State} {a v : Int} (h : InBounds s a) :
    memWrite s a v = .ok { s with mem := s.mem.write a.toNat v } := if_pos h

theorem memWrite_outOfBounds {s : State} {a v : Int} (h : ¬InBounds s a) :
    memWrite s a v = .error (.memoryOutOfBounds a) := if_neg h

/-- A write that answers a state was in bounds and changed that cell alone. -/
theorem memWrite_ok {s t : State} {a v : Int} (h : memWrite s a v = .ok t) :
    InBounds s a ∧ t = { s with mem := s.mem.write a.toNat v } := by
  by_cases hb : InBounds s a
  · rw [memWrite_inBounds hb] at h
    exact ⟨hb, (Except.ok.inj h).symm⟩
  · rw [memWrite_outOfBounds hb] at h
    cases h

/-- A write that fails was out of bounds and reports its address. -/
theorem memWrite_error {s : State} {a v : Int} {e : ErrInfo} (h : memWrite s a v = .error e) :
    ¬InBounds s a ∧ e = .memoryOutOfBounds a := by
  by_cases hb : InBounds s a
  · rw [memWrite_inBounds hb] at h
    cases h
  · rw [memWrite_outOfBounds hb] at h
    exact ⟨hb, (Except.error.inj h).symm⟩

/-- The operand `n` as a direct address is in bounds when it is below the memory size (R52). -/
theorem inBounds_natCast {s : State} {n : Nat} : InBounds s (n : Int) ↔ n < s.cfg.memSize := by
  simp [InBounds]

@[simp] theorem retire_ok (op : Opcode) (s t : State) : retire op s (.ok t) = .next (advance op t) := rfl

@[simp] theorem retire_error (op : Opcode) (s : State) (info : ErrInfo) :
    retire op s (.error info) = .next (raise s (tagByte op) info) := rfl

/-- Retiring always answers a next state: the advanced result, or the state with the error taken. -/
theorem retire_next {op : Opcode} {s t : State} {r : Except ErrInfo State} (h : retire op s r = .next t) :
    (∃ u, r = .ok u ∧ t = advance op u) ∨ ∃ info, r = .error info ∧ t = raise s (tagByte op) info := by
  cases r with
  | ok u => exact .inl ⟨u, rfl, by simpa using h.symm⟩
  | error info => exact .inr ⟨info, rfl, by simpa using h.symm⟩

/-- What a placed program reads as from `pc` on: the bytes placed, then the rest of the old program. -/
theorem placeAtPc_drop (s : State) (bs : List Byte) :
    (placeAtPc s bs).prog.drop s.pc = bs ++ s.prog.drop (s.pc + bs.length) := by
  have h : ((s.prog ++ List.replicate (s.pc - s.prog.length) 0).take s.pc).length = s.pc := by simp; omega
  rw [placeAtPc, List.append_assoc, List.drop_left' h]

end Sys2Proof.Machine
end

