-- ==== Sys2Proof/Laws/Exec.lean ====
section
/-! SUPPORT. What `exec` and `step` can do, said once. Invariants and frames follow from these. -/

namespace Sys2Proof.Machine

/-- The address an instruction stores to when it completes: the expression its meaning uses (R130, R134, R138, R150). -/
def storeAddr : Instr → Int
  | .loadConstant dst _ => directAddr dst
  | .readMemory dst _ _ => directAddr dst
  | .writeMemory dst _ => directAddr dst
  | .sqrt dstBase dstOffset _ => offsetAddr dstBase dstOffset

/-- Where the value an instruction stores comes from: its immediate, a cell, or the root of a cell's value. -/
inductive StoredValue (s : State) : Instr → Int → Prop where
  | immediate (dst value : Nat) : StoredValue s (.loadConstant dst value) value
  | loaded (dst base offset a : Nat) : StoredValue s (.readMemory dst base offset) (s.mem.read a)
  | copied (dst src a : Nat) : StoredValue s (.writeMemory dst src) (s.mem.read a)
  | root (dstBase dstOffset srcPtr a : Nat) (h : 0 ≤ s.mem.read a) :
      StoredValue s (.sqrt dstBase dstOffset srcPtr) (isqrt (s.mem.read a).toNat : Int)

/-- Why an instruction can take an error while executing: an address out of bounds, or the root of a negative cell. -/
inductive ExecError (s : State) : ErrInfo → Prop where
  | bounds (a : Int) (h : ¬InBounds s a) : ExecError s (.memoryOutOfBounds a)
  | negative (a : Int) (ha : InBounds s a) (h : s.mem.read a.toNat < 0) :
      ExecError s (.negativeSqrt a (s.mem.read a.toNat))

/-- Everything an executed instruction can do: one cell written and `pc` past the instruction, or the error taken
with nothing else changed. There is no third outcome. -/
theorem exec_cases (i : Instr) (s : State) :
    (∃ v, InBounds s (storeAddr i) ∧ StoredValue s i v ∧
      exec i s = .next (advance (opcodeOf i) { s with mem := s.mem.write (storeAddr i).toNat v })) ∨
    (∃ info, ExecError s info ∧ exec i s = .next (raise s (tagByte (opcodeOf i)) info)) := by
  cases i with
  | loadConstant dst value =>
    by_cases h : InBounds s (directAddr dst)
    · exact .inl ⟨value, h, .immediate .., by simp [exec, execLoadConstant, memWrite_inBounds h, storeAddr, opcodeOf]⟩
    · exact .inr ⟨_, .bounds _ h, by simp [exec, execLoadConstant, memWrite_outOfBounds h, opcodeOf]⟩
  | readMemory dst base offset =>
    by_cases hb : InBounds s (directAddr base)
    · by_cases ha : InBounds s (s.mem.read (directAddr base).toNat + offset)
      · by_cases hd : InBounds s (directAddr dst)
        · exact .inl ⟨_, hd, .loaded _ _ _ (s.mem.read (directAddr base).toNat + offset).toNat, by
            simp [exec, execReadMemory, pointerOffsetAddr, pointerAddr, memRead_inBounds hb, memRead_inBounds ha,
              memWrite_inBounds hd, storeAddr, opcodeOf]⟩
        · exact .inr ⟨_, .bounds _ hd, by
            simp [exec, execReadMemory, pointerOffsetAddr, pointerAddr, memRead_inBounds hb, memRead_inBounds ha,
              memWrite_outOfBounds hd, opcodeOf]⟩
      · exact .inr ⟨_, .bounds _ ha, by
          simp [exec, execReadMemory, pointerOffsetAddr, pointerAddr, memRead_inBounds hb, memRead_outOfBounds ha,
            opcodeOf]⟩
    · exact .inr ⟨_, .bounds _ hb, by
        simp [exec, execReadMemory, pointerOffsetAddr, pointerAddr, memRead_outOfBounds hb, opcodeOf]⟩
  | writeMemory dst src =>
    by_cases hd : InBounds s (directAddr dst)
    · have hc : checkBounds s (directAddr dst) = .ok () := if_pos hd
      by_cases hs : InBounds s (directAddr src)
      · exact .inl ⟨_, hd, .copied _ _ (directAddr src).toNat, by
          simp [exec, execWriteMemory, hc, memRead_inBounds hs, memWrite_inBounds hd, storeAddr, opcodeOf]⟩
      · exact .inr ⟨_, .bounds _ hs, by simp [exec, execWriteMemory, hc, memRead_outOfBounds hs, opcodeOf]⟩
    · have hc : checkBounds s (directAddr dst) = .error (.memoryOutOfBounds (directAddr dst)) := if_neg hd
      exact .inr ⟨_, .bounds _ hd, by simp [exec, execWriteMemory, hc, opcodeOf]⟩
  | sqrt dstBase dstOffset srcPtr =>
    by_cases hp : InBounds s (directAddr srcPtr)
    · by_cases ha : InBounds s (s.mem.read (directAddr srcPtr).toNat)
      · by_cases hv : s.mem.read (s.mem.read (directAddr srcPtr).toNat).toNat < 0
        · exact .inr ⟨_, .negative _ ha hv, by
            simp [exec, execSqrt, pointerAddr, memRead_inBounds hp, memRead_inBounds ha, hv, opcodeOf]⟩
        · by_cases hd : InBounds s (offsetAddr dstBase dstOffset)
          · exact .inl ⟨_, hd, .root _ _ _ (s.mem.read (directAddr srcPtr).toNat).toNat (by omega), by
              simp [exec, execSqrt, pointerAddr, memRead_inBounds hp, memRead_inBounds ha, hv,
                memWrite_inBounds hd, storeAddr, opcodeOf]⟩
          · exact .inr ⟨_, .bounds _ hd, by
              simp [exec, execSqrt, pointerAddr, memRead_inBounds hp, memRead_inBounds ha, hv,
                memWrite_outOfBounds hd, opcodeOf]⟩
      · exact .inr ⟨_, .bounds _ ha, by
          simp [exec, execSqrt, pointerAddr, memRead_inBounds hp, memRead_outOfBounds ha, opcodeOf]⟩
    · exact .inr ⟨_, .bounds _ hp, by simp [exec, execSqrt, pointerAddr, memRead_outOfBounds hp, opcodeOf]⟩

/-- What a fetch can answer, with the bytes it answers it for. -/
theorem fetch_cases (s : State) :
    (s.pc = s.prog.length ∧ fetch s = .endOfProgram) ∨
    (∃ i n, s.pc ≠ s.prog.length ∧ decodeAt s.prog s.pc = .ok (i, n) ∧ fetch s = .instr i) ∨
    (∃ t, s.pc ≠ s.prog.length ∧ decodeAt s.prog s.pc = .error (.unknownOpcode t) ∧
      fetch s = .undecodable t .unknownOpcode) ∨
    (∃ t n r, s.pc ≠ s.prog.length ∧ decodeAt s.prog s.pc = .error (.truncated t n r) ∧
      fetch s = .undecodable t (.truncatedInstruction n r)) ∨
    (s.pc ≠ s.prog.length ∧ decodeAt s.prog s.pc = .error .noTagByte ∧ fetch s = .pastEnd) := by
  by_cases h : s.pc = s.prog.length
  · exact .inl ⟨h, by simp [fetch, h]⟩
  · right
    rcases hd : decodeAt s.prog s.pc with e | ⟨i, n⟩
    · cases e <;> simp [fetch, h, hd]
    · exact .inl ⟨i, n, h, rfl, by simp [fetch, h, hd]⟩

/-- Everything a step that answers a next state can do: end the run, execute the decoded instruction, or take a
decode error. -/
theorem step_cases {s t : State} (h : step s = .next t) :
    s.status = .running ∧
    ((s.pc = s.prog.length ∧ t = finish s) ∨
     (∃ i n, decodeAt s.prog s.pc = .ok (i, n) ∧ exec i s = .next t) ∨
     (∃ tag, decodeAt s.prog s.pc = .error (.unknownOpcode tag) ∧ t = raise s tag .unknownOpcode) ∨
     (∃ tag n r, decodeAt s.prog s.pc = .error (.truncated tag n r) ∧
       t = raise s tag (.truncatedInstruction n r))) := by
  unfold step at h
  split at h
  · cases h
  · cases h
  · next hs =>
    refine ⟨hs, ?_⟩
    rcases fetch_cases s with ⟨hp, hf⟩ | ⟨i, n, _, hd, hf⟩ | ⟨tag, _, hd, hf⟩ | ⟨tag, n, r, _, hd, hf⟩ | ⟨_, _, hf⟩ <;>
      rw [hf] at h
    · exact .inl ⟨hp, by simpa using h.symm⟩
    · exact .inr (.inl ⟨i, n, hd, h⟩)
    · exact .inr (.inr (.inl ⟨tag, hd, by simpa using h.symm⟩))
    · exact .inr (.inr (.inr ⟨tag, n, r, hd, by simpa using h.symm⟩))
    · cases h

end Sys2Proof.Machine
end

