-- ==== Sys2Proof/Laws/PerInstr.lean ====
section
/-! SUPPORT. The per-instruction family Layout: every instruction's bytes begin with its tag, by which the decoder
finds its opcode, and its operands are as many as its opcode's fields (R70, R72). -/

/-- The layout of one instruction's encoding. -/
def Sys2Proof.Laws.Layout.Statement (i : Sys2Proof.Instr) : Prop :=
  (Sys2Proof.encode i).head? = some (Sys2Proof.tagByte (Sys2Proof.opcodeOf i)) ∧
  Sys2Proof.opcodeOfTag (Sys2Proof.tagByte (Sys2Proof.opcodeOf i)).toNat = some (Sys2Proof.opcodeOf i) ∧
  (Sys2Proof.operandsOf i).length = (Sys2Proof.widthsOf (Sys2Proof.opcodeOf i)).length

theorem Sys2Proof.Laws.Layout.loadConstant (dst value : Nat) :
    Sys2Proof.Laws.Layout.Statement (.loadConstant dst value) := ⟨rfl, rfl, rfl⟩

theorem Sys2Proof.Laws.Layout.readMemory (dst base offset : Nat) :
    Sys2Proof.Laws.Layout.Statement (.readMemory dst base offset) := ⟨rfl, rfl, rfl⟩

theorem Sys2Proof.Laws.Layout.writeMemory (dst src : Nat) :
    Sys2Proof.Laws.Layout.Statement (.writeMemory dst src) := ⟨rfl, rfl, rfl⟩

theorem Sys2Proof.Laws.Layout.sqrt (dstBase dstOffset srcPtr : Nat) :
    Sys2Proof.Laws.Layout.Statement (.sqrt dstBase dstOffset srcPtr) := ⟨rfl, rfl, rfl⟩
end

