-- ==== Sys2Proof/Laws/Run.lean ====
section
/-! SUPPORT. Whole runs: an ended run stays as it ended, and what every step keeps, every run keeps. -/

namespace Sys2Proof.Machine

/-- An ended run stays as it ended (R35). -/
theorem runSteps_of_ended {s : State} (h : Ended s) (k : Nat) : runSteps k s = s := by
  cases k with
  | zero => rfl
  | succ k => cases hs : s.status <;> simp_all [runSteps, step]

theorem runSteps_succ_of_next {s t : State} (h : step s = .next t) (k : Nat) : runSteps (k + 1) s = runSteps k t := by
  rw [runSteps, h]

/-- A predicate that holds of a state and that every step keeps holds after any number of steps. -/
theorem runSteps_keeps {Inv : State → Prop} (kept : ∀ s t : State, Inv s → step s = .next t → Inv t) (k : Nat)
    (s : State) (h : Inv s) : Inv (runSteps k s) := by
  induction k generalizing s with
  | zero => exact h
  | succ k ih =>
    rw [runSteps]
    cases hs : step s with
    | next t => exact ih t (kept s t h hs)
    | fault r => exact h
    | refused r => exact h

end Sys2Proof.Machine
end

