-- ==== Sys2Proof/Laws/Text.lean ====
section
/-! SUPPORT. Pieces and tokens of texts: how cutting and tokenising go through an append. -/

namespace Sys2Proof.Assembler

/-- The model's whitespace test is membership in the list of R91. -/
theorem isSpace_iff (b : Byte) : isSpace b = true ↔ b ∈ whitespace := by
  simp [isSpace, whitespace, or_assoc]

theorem splitAtByte_ne_nil (sep : Byte) (t : Text) : splitAtByte sep t ≠ [] := by
  cases t with
  | nil => simp [splitAtByte]
  | cons b t =>
    rw [splitAtByte]
    split
    · simp
    · split <;> simp

/-- A separator cuts: the pieces are those before it, then those after it. -/
theorem splitAtByte_append_sep (sep : Byte) (a b : Text) :
    splitAtByte sep (a ++ sep :: b) = splitAtByte sep a ++ splitAtByte sep b := by
  induction a with
  | nil => simp [splitAtByte]
  | cons x a ih =>
    obtain ⟨p, ps, e⟩ := List.exists_cons_of_ne_nil (splitAtByte_ne_nil sep a)
    by_cases hx : x = sep <;> simp [splitAtByte, hx, ih, e]

/-- A text without the separator is one piece. -/
theorem splitAtByte_of_not_mem {sep : Byte} {t : Text} (h : sep ∉ t) : splitAtByte sep t = [t] := by
  induction t with
  | nil => rfl
  | cons b t ih =>
    simp only [List.mem_cons, not_or] at h
    rw [splitAtByte, if_neg (Ne.symm h.1), ih h.2]

/-- Bytes that are no whitespace go to the token begun. -/
theorem tokensFrom_append {u : Text} (h : ∀ x ∈ u, isSpace x = false) (cur rest : Text) :
    tokensFrom cur (u ++ rest) = tokensFrom (u.reverse ++ cur) rest := by
  induction u generalizing cur with
  | nil => rfl
  | cons b u ih =>
    rw [List.cons_append, tokensFrom, h b (by simp)]
    simp only [Bool.false_eq_true, if_false]
    rw [ih (fun x hx => h x (by simp [hx]))]
    simp

/-- Whitespace before a token begins is passed over. -/
theorem tokensFrom_skip {g : Text} (h : ∀ x ∈ g, isSpace x = true) (rest : Text) :
    tokensFrom [] (g ++ rest) = tokensFrom [] rest := by
  induction g with
  | nil => rfl
  | cons b g ih =>
    rw [List.cons_append, tokensFrom, h b (by simp)]
    simpa using ih fun x hx => h x (by simp [hx])

/-- Whitespace after a token ends it. -/
theorem tokensFrom_end {cur : Text} (hc : cur ≠ []) {g : Text} (hg : g ≠ []) (h : ∀ x ∈ g, isSpace x = true)
    (rest : Text) : tokensFrom cur (g ++ rest) = cur.reverse :: tokensFrom [] rest := by
  cases g with
  | nil => exact absurd rfl hg
  | cons b g =>
    rw [List.cons_append, tokensFrom, h b (by simp)]
    simp [hc, tokensFrom_skip fun x hx => h x (List.mem_cons_of_mem _ hx)]

end Sys2Proof.Assembler
end

