-- ==== Sys2Proof/Machine/Flags.lean ====
section
/-! DEFINITION. The CORE has no flags, condition codes or predicates, and no instruction sets or reads a status bit
(R37, R155); so there is no flag computation to define. The run status (R35) is set by `raise` and `finish` of
Machine/Ops.lean. -/
end

