-- ==== Sys2Proof/Tests/Slice0.lean ====
section
/-! SUPPORT. Tests: words written out from the spec's encodings, vectors of 95_test_vectors.md (named in each
comment), ill-formed terms the checks refuse, and for every statement a witness of its hypotheses. -/

namespace Sys2Proof.Tests

open Sys2Proof.Machine Sys2Proof.Assembler Sys2Proof.Report

/-- A running machine of 1024 cells with the given cells and no program. -/
def cells (m : Memory) : State := { State.start {} [] with mem := m }

/-- A running machine of 1024 cells, all 0, with the given program. -/
def program (P : List Byte) : State := State.start {} P

/-- The next state of an outcome, if it is one. -/
def nextOf (o : Host.Outcome State Fault Refusal) : Option State :=
  match o with
  | .next t => some t
  | .fault _ => none
  | .refused _ => none

/-- What the outcome's status and the cell `a` are. -/
def statusAndCell (o : Host.Outcome State Fault Refusal) (a : Nat) : Option (Status × Int) :=
  (nextOf o).map fun t => (t.status, t.mem.read a)

/-- An outcome whose next state passes a test has a next state that does. -/
theorem exists_next {o : Host.Outcome State Fault Refusal} (q : State → Prop) [DecidablePred q]
    (h : (nextOf o).any (fun t => decide (q t)) = true) : ∃ t : State, o = .next t ∧ q t := by
  cases o with
  | next t => exact ⟨t, rfl, by simpa [nextOf] using h⟩
  | fault r => simp [nextOf] at h
  | refused r => simp [nextOf] at h

/-! ### Ill-formed terms (R97) -/

theorem test_wf_refuses_wide_dst : ¬WellFormed (.loadConstant 4294967296 0) := by decide
theorem test_wf_refuses_wide_value : ¬WellFormed (.loadConstant 0 4294967296) := by decide
theorem test_wf_refuses_wide_base : ¬WellFormed (.readMemory 0 4294967296 0) := by decide
theorem test_wf_refuses_wide_offset : ¬WellFormed (.readMemory 0 0 65536) := by decide
theorem test_wf_refuses_wide_src : ¬WellFormed (.writeMemory 0 4294967296) := by decide
theorem test_wf_refuses_wide_dst_offset : ¬WellFormed (.sqrt 0 65536 0) := by decide
theorem test_wf_refuses_wide_src_ptr : ¬WellFormed (.sqrt 0 0 4294967296) := by decide

/-! ### Decoding (R72-R75, R80) -/

/-- Scenario A: `5A 00000005 0000002A`. -/
theorem test_decode_load_constant : decodeBytes [0x5A, 0, 0, 0, 5, 0, 0, 0, 0x2A] = .ok (.loadConstant 5 42, 9) := by
  decide

/-- R134's example: `01 00000002 00000001 0005`. -/
theorem test_decode_read_memory :
    decodeBytes [0x01, 0, 0, 0, 2, 0, 0, 0, 1, 0, 5] = .ok (.readMemory 2 1 5, 11) := by decide

/-- R138's example: `3E 00000003 00000002`. -/
theorem test_decode_write_memory : decodeBytes [0x3E, 0, 0, 0, 3, 0, 0, 0, 2] = .ok (.writeMemory 3 2, 9) := by decide

/-- R150's example: `89 00000002 0003 00000000`; the 2-byte field stands second (R75). -/
theorem test_decode_sqrt : decodeBytes [0x89, 0, 0, 0, 2, 0, 3, 0, 0, 0, 0] = .ok (.sqrt 2 3 0, 11) := by decide

/-- S7: `89 000003E8 0018 00000000`, a field of two significant bytes. -/
theorem test_decode_sqrt_wide : decodeBytes [0x89, 0, 0, 3, 0xE8, 0, 0x18, 0, 0, 0, 0] = .ok (.sqrt 1000 24 0, 11) := by
  decide

/-- E23 and E3: the encoder's bytes. -/
theorem test_encode_sqrt : encode (.sqrt 1 0 0) = [0x89, 0, 0, 0, 1, 0, 0, 0, 0, 0, 0] := by decide
theorem test_encode_read_memory :
    encode (.readMemory 0 0 65535) = [0x01, 0, 0, 0, 0, 0, 0, 0, 0, 0xFF, 0xFF] := by decide

/-- T4: an unknown tag is never reported as truncated. -/
theorem test_decode_unknown : decodeBytes [0x02] = .error (.unknownOpcode 2) := by decide

/-- T6: ten of eleven bytes. -/
theorem test_decode_truncated : decodeBytes [0x01, 0, 0, 0, 1, 0, 0, 0, 2, 0] = .error (.truncated 1 10 9) := by decide

theorem test_fetch_word_runs : (nextOf (step (State.reset.withFetchWord 8 0x3E))).map (fun t => t.pc) = some 9 := by decide

/-! ### One instruction, one step (at most two each) -/

/-- L2: the highest cell, and a value that is not -1. -/
theorem test_load_constant_unsigned :
    statusAndCell (step (program [0x5A, 0, 0, 3, 0xFF, 0xFF, 0xFF, 0xFF, 0xFF])) 1023 = some (.running, 4294967295) := by
  decide

/-- L3: the first address past the end. -/
theorem test_load_constant_out_of_bounds :
    statusAndCell (step (program [0x5A, 0, 0, 4, 0, 0, 0, 0, 1])) 0 =
      some (.faulted ⟨0, 0x5A, .memoryOutOfBounds 1024⟩, 0) := by decide

/-- R9: the destination is the pointer cell; the old pointer is used. -/
theorem test_read_memory_aliased :
    statusAndCell (exec (.readMemory 5 5 0) (cells [(5, 7), (7, 42)])) 5 = some (.running, 42) := by decide

/-- R8: the sum does not wrap to 0. -/
theorem test_read_memory_no_wrap :
    statusAndCell (exec (.readMemory 1 0 1) (cells [(0, 4294967295)])) 1 =
      some (.faulted ⟨0, 0x01, .memoryOutOfBounds 4294967296⟩, 0) := by decide

/-- W2: a copy from the highest cell. -/
theorem test_write_memory_copies :
    statusAndCell (exec (.writeMemory 0 1023) (cells [(1023, 5)])) 0 = some (.running, 5) := by decide

/-- W5: both out of bounds, `dst` is reported. -/
theorem test_write_memory_reports_dst :
    statusAndCell (exec (.writeMemory 2000 3000) (cells [])) 0 =
      some (.faulted ⟨0, 0x3E, .memoryOutOfBounds 2000⟩, 0) := by decide

/-- S11: the destination is the pointer cell. -/
theorem test_sqrt_aliased : statusAndCell (exec (.sqrt 2 0 2) (cells [(2, 5), (5, 81)])) 2 = some (.running, 9) := by
  decide

/-- S10: the sign is checked before the destination. -/
theorem test_sqrt_negative_first :
    statusAndCell (exec (.sqrt 1024 0 0) (cells [(0, 7), (7, -1)])) 1 =
      some (.faulted ⟨0, 0x89, .negativeSqrt 7 (-1)⟩, 0) := by decide

/-- The table of R151 at its boundaries. -/
theorem test_isqrt_boundaries :
    [0, 1, 3, 4, 15, 16, 17, 144, 4294836224, 4294836225, 4294967295].map isqrt =
      [0, 1, 1, 2, 3, 4, 4, 12, 65534, 65535, 65535] := by decide

/-- R10: writing 0 lists nothing. -/
theorem test_write_zero_unlists : Memory.write [(0, 5)] 0 0 = [] := by decide

/-! ### The Encoder -/

/-- E4: comments and blanks, then Scenario A; one log record. -/
theorem test_encode_program_skips :
    encodeProgram (ascii ['#', ' ', 'c', '\n', '\n', ' ', '#', '\n', '9', '0', ' ', '5', ' ', '4', '2', '\n']) =
      .ok ([0x5A, 0, 0, 0, 5, 0, 0, 0, 0x2A],
        [⟨ascii ['9', '0', ' ', '5', ' ', '4', '2'],
          ascii ['5', 'a', '0', '0', '0', '0', '0', '0', '0', '5', '0', '0', '0', '0', '0', '0', '2', 'a']⟩]) := by decide

/-- E6: a sign and leading zeros. -/
theorem test_assemble_signs : assembleLine (ascii ['0', '9', '0', ' ', '+', '5', ' ', '0', '0', '4', '2']) =
    .ok (.loadConstant 5 42) := by decide

/-- E7: `-0` is 0. -/
theorem test_assemble_minus_zero : assembleLine (ascii ['9', '0', ' ', '-', '0', ' ', '1']) = .ok (.loadConstant 0 1) := by
  decide

/-- E5: tabs separate, the ends are trimmed. -/
theorem test_trim_inner_kept :
    trim (ascii [' ', ' ', '9', '0', ' ', '5', '\t', '4', ' ', '\r']) = ascii ['9', '0', ' ', '5', '\t', '4'] := by decide

/-- E11, E14, E18, E20. -/
theorem test_assemble_errors :
    assembleLine (ascii ['L', 'O', 'A', 'D', ' ', '1', ' ', '2']) = .error .unknownOpcode ∧
    assembleLine (ascii ['9', '0', ' ', '1', ' ', '2', ' ', '3']) = .error .malformedOperand ∧
    assembleLine (ascii ['9', '0', ' ', '1', ' ', '-', '1']) = .error .malformedOperand ∧
    assembleLine (ascii ['1', ' ', '0', ' ', '0', ' ', '6', '5', '5', '3', '6']) = .error .malformedOperand := by decide

/-- E22: the physical line number counts the blank line; no output. -/
theorem test_encode_program_error :
    encodeProgram (ascii ['9', '0', ' ', '1', ' ', '2', '\n', '\n', '6', '2', ' ', '3', '\n', '9', '0', ' ', '4', ' ', '5']) =
      .error ⟨.malformedOperand, 3, ascii ['6', '2', ' ', '3']⟩ := by decide

/-! ### Report (Scenario A's run) -/

/-- The program of Scenario A. -/
def scenarioA : List Byte := [0x5A, 0, 0, 0, 5, 0, 0, 0, 0x2A]

/-- Scenario A and Q1. -/
theorem test_report_scenario_a :
    (decoderInvocation {} scenarioA (ascii ['5', ':', '6'])).written =
      some [(ascii ['m', 'e', 'm', 'o', 'r', 'y', '[', '5', ']'], .int 42)] := by decide

/-- Q4 and Q6. -/
theorem test_report_ranges :
    (decoderInvocation {} scenarioA (ascii ['5', ':', '3'])).written = some [] ∧
    (decoderInvocation {} scenarioA (ascii ['-', '1', ':', '0'])).diagnostic =
      some (.reportError (.memoryOutOfBounds (-1))) := by decide

/-- Q7. -/
theorem test_report_bad_range :
    (decoderInvocation {} scenarioA (ascii ['5', '-', '6'])).diagnostic = some .badRange := by decide

/-! ### Witnesses: for every statement with hypotheses, inputs that meet them, a clause at a time, at boundaries -/

theorem witness_BigEndianFieldsAndInverse : 4294967295 < 256 ^ 4 ∧ 65535 < 256 ^ 2 := by decide

theorem witness_DecodeAtEveryOffset : 8 < scenarioA.length := by decide

theorem witness_OperandsAreBitRanges :
    (scenarioA.length = 9 ∧ beValue scenarioA / 2 ^ 64 = 90) ∧
    (let bs : List Byte := [0x3E, 0, 0, 0, 3, 0xFF, 0xFF, 0xFF, 0xFF]; bs.length = 9 ∧ beValue bs / 2 ^ 64 = 62) ∧
    (let bs : List Byte := [0x01, 0, 0, 0, 2, 0, 0, 0, 1, 0xFF, 0xFF]; bs.length = 11 ∧ beValue bs / 2 ^ 80 = 1) ∧
    (let bs : List Byte := [0x89, 0, 0, 0, 2, 0xFF, 0xFF, 0, 0, 0, 0]; bs.length = 11 ∧ beValue bs / 2 ^ 80 = 137) := by
  decide

theorem witness_EncodedInstrDecodesToItself :
    WellFormed (.loadConstant 4294967295 4294967295) ∧ WellFormed (.readMemory 4294967295 4294967295 65535) ∧
    WellFormed (.writeMemory 4294967295 4294967295) ∧ WellFormed (.sqrt 4294967295 65535 4294967295) := by decide

theorem witness_DecodedBytesAreTheEncoding : decodeBytes (scenarioA ++ [1]) = .ok (.loadConstant 5 42, 9) := by decide

theorem witness_ProgramSplitIsUnique :
    (∀ i ∈ [Instr.loadConstant 5 42, Instr.sqrt 1 2 3], WellFormed i) ∧
    [Instr.loadConstant 5 42, Instr.sqrt 1 2 3].flatMap encode =
      [Instr.loadConstant 5 42, Instr.sqrt 1 2 3].flatMap encode := by decide

theorem witness_MemReadChecksBounds :
    InBounds (cells []) 1023 ∧ InBounds (cells []) 0 ∧ ¬InBounds (cells []) 1024 ∧ ¬InBounds (cells []) (-1) := by decide

theorem witness_MemWriteChangesOneCell :
    InBounds (cells [(1023, 5)]) 1023 ∧ ¬InBounds (cells [(1023, 5)]) 1024 := by decide

theorem witness_CanonicalMemoryIsItsReads :
    Memory.wf [(1, 2), (5, -3)] ∧ Memory.wf (Memory.write (Memory.write [] 5 (-3)) 1 2) ∧
    Memory.write (Memory.write [] 5 (-3)) 1 2 = [(1, 2), (5, -3)] := by decide

theorem witness_LoadConstantStoresImmediate :
    1023 < (cells []).cfg.memSize ∧ (cells []).cfg.memSize ≤ 1024 := by decide

/-- Pointer 1000 plus 23 is the highest cell; plus 24 is the first one past it. -/
theorem witness_ReadMemoryLoadsThroughPointer :
    let s := cells [(0, 1000), (1023, 77)]
    (0 < s.cfg.memSize ∧ InBounds s (s.mem.read 0 + (23 : Nat)) ∧ 1 < s.cfg.memSize) ∧
    s.cfg.memSize ≤ 1024 ∧
    (0 < s.cfg.memSize ∧ ¬InBounds s (s.mem.read 0 + (24 : Nat))) ∧
    (0 < s.cfg.memSize ∧ InBounds s (s.mem.read 0 + (23 : Nat)) ∧ s.cfg.memSize ≤ 1024) := by decide

theorem witness_WriteMemoryCopiesCell :
    let s := cells [(1023, 5)]
    (0 < s.cfg.memSize ∧ 1023 < s.cfg.memSize) ∧ s.cfg.memSize ≤ 1024 ∧ (0 < s.cfg.memSize ∧ s.cfg.memSize ≤ 1024) := by
  decide

/-- Cell 0 points to 10, cell 1 out of bounds, cell 2 to a negative cell; destinations 1000 + 23 and 1000 + 24. -/
theorem witness_SqrtWritesFlooredRoot :
    let s := cells [(0, 10), (1, 1024), (2, 7), (7, -1), (10, 144)]
    (0 < s.cfg.memSize ∧ InBounds s (s.mem.read 0) ∧ 0 ≤ s.mem.read (s.mem.read 0).toNat ∧ 1000 + 23 < s.cfg.memSize) ∧
    s.cfg.memSize ≤ 1024 ∧
    (1 < s.cfg.memSize ∧ ¬InBounds s (s.mem.read 1)) ∧
    (2 < s.cfg.memSize ∧ InBounds s (s.mem.read 2) ∧ s.mem.read (s.mem.read 2).toNat < 0) ∧
    (0 < s.cfg.memSize ∧ InBounds s (s.mem.read 0) ∧ 0 ≤ s.mem.read (s.mem.read 0).toNat ∧
      s.cfg.memSize ≤ 1000 + 24) := by decide

theorem witness_IntegerRootIsExact : 4294967295 ≤ 2 ^ 32 - 1 := by decide

theorem witness_AliasedOperandsUseOldValues :
    let s := cells [(2, 5), (5, 81)]
    (2 < s.cfg.memSize ∧ InBounds s (s.mem.read 2 + (0 : Nat))) ∧
    5 < s.cfg.memSize ∧
    (2 < s.cfg.memSize ∧ InBounds s (s.mem.read 2) ∧ 0 ≤ s.mem.read (s.mem.read 2).toNat ∧ 2 + 0 = 2) ∧
    (2 < s.cfg.memSize ∧ InBounds s (s.mem.read 2) ∧ 0 ≤ s.mem.read (s.mem.read 2).toNat ∧
      ((4 + 1 : Nat) : Int) = s.mem.read 2) := by decide

theorem witness_CopyOntoItselfChangesNothing :
    let s := cells [(2, 5), (5, 81)]
    s.mem.wf ∧ 5 < s.cfg.memSize ∧ 2 < s.cfg.memSize ∧ s.mem.read 2 + (3 : Nat) = ((8 : Nat) : Int) ∧
    8 < s.cfg.memSize := by decide

theorem witness_InstructionFrame_completes : ∃ t : State, exec (.writeMemory 0 1) (cells []) = .next t ∧ t.pc = 9 :=
  exists_next (fun t => t.pc = 9) (by decide)

theorem witness_InstructionFrame_faults :
    ∃ t : State, exec (.writeMemory 0 1024) (cells []) = .next t ∧
      t.status = .faulted ⟨0, 0x3E, .memoryOutOfBounds 1024⟩ :=
  exists_next (fun t => t.status = .faulted ⟨0, 0x3E, .memoryOutOfBounds 1024⟩) (by decide)

theorem witness_StepRunsDecodedInstruction :
    (program scenarioA).status = .running ∧
    decodeAt (program scenarioA).prog (program scenarioA).pc = .ok (.loadConstant 5 42, 9) := by decide

/-- T2, T5 and T7: an unknown tag, a known tag alone, and one byte too few. -/
theorem witness_UndecodableBytesFault :
    ((program [0xFF]).status = .running ∧ (program [0xFF]).prog.drop 0 = 0xFF :: []) ∧
    ((program [0x5A]).prog.drop 0 = 0x5A :: [] ∧ (0x5A : Byte).toNat = 90) ∧
    ((program [0x89, 0, 0]).prog.drop 0 = 0x89 :: [0, 0] ∧ (0x89 : Byte).toNat = 137) := by decide

theorem witness_NormalEndOnlyAtProgramEnd :
    (program []).status = .running ∧ (program []).pc = (program []).prog.length ∧
    nextOf (step (program [])) = some (finish (program [])) := by decide

theorem witness_StepAdvancesByLength :
    ∃ t : State, step (program scenarioA) = .next t ∧ t.status = .running :=
  exists_next (fun t => t.status = .running) (by decide)

theorem witness_ErrorChangesStatusOnly :
    ∃ t : State, step (program [0x5B]) = .next t ∧ t.status = .faulted ⟨0, 0x5B, .unknownOpcode⟩ :=
  exists_next (fun t => t.status = .faulted ⟨0, 0x5B, .unknownOpcode⟩) (by decide)

theorem witness_EndedRunTakesNoStep :
    (finish (program [])).status = .done ∧
    (raise (program [0]) 0 .unknownOpcode).status = .faulted ⟨0, 0, .unknownOpcode⟩ := by decide

theorem witness_RunningMachineAlwaysSteps :
    (program []).status = .running ∧ (program []).pc ≤ (program []).prog.length := by decide

theorem witness_StepKeepsPcWithinProgram :
    PcWithin (program scenarioA) ∧ (nextOf (step (program scenarioA))).map (fun t => t.pc) = some 9 := by decide

theorem witness_ProgramAndSizeNeverChange : ∃ t : State, step (program scenarioA) = .next t ∧
    t.mem.read 5 = 42 := exists_next (fun t => t.mem.read 5 = 42) (by decide)

theorem witness_StepKeepsMemoryCanonical :
    MemoryCanonical { program scenarioA with mem := [(0, -1), (1023, 5)] } ∧
    (nextOf (step { program scenarioA with mem := [(0, -1), (1023, 5)] })).map (fun t => t.mem) =
      some [(0, -1), (5, 42), (1023, 5)] := by decide

theorem witness_StepKeepsCellsInRange :
    CellsInRange (program scenarioA) ∧ ∃ t : State, step (program scenarioA) = .next t ∧ t.mem.read 5 = 42 :=
  ⟨fun a => by simp [program], exists_next (fun t => t.mem.read 5 = 42) (by decide)⟩

theorem witness_NegativeSqrtNeverReached :
    CellsInRange (program [0x07]) ∧
    ∃ t : State, step (program [0x07]) = .next t ∧ t.status = .faulted ⟨0, 7, .unknownOpcode⟩ :=
  ⟨fun a => by simp [program], exists_next (fun t => t.status = .faulted ⟨0, 7, .unknownOpcode⟩) (by decide)⟩

theorem witness_NegativeSqrtNeverReached_run :
    (runSteps 1 (State.start {} [0x07])).status = .faulted ⟨0, 7, .unknownOpcode⟩ := by decide

theorem witness_EveryRunEnds : (runSteps 1 (State.start {} scenarioA)).status = .running := by decide

/-- Scenario A ends `done`; T8 faults after its first instruction. -/
theorem witness_EndedRunExecutedItsInstructions :
    (runSteps 2 (State.start {} scenarioA)).status = .done ∧
    (runSteps 2 (State.start {} (scenarioA ++ [0x07]))).status = .faulted ⟨9, 7, .unknownOpcode⟩ := by decide

/-- A line of each clause: unknown opcode, wrong arity, an operand that does not fit, and a good line. -/
theorem witness_LineChecksThenBytes :
    (tokens (ascii ['9', '1', ' ', '1']) = [ascii ['9', '1'], ascii ['1']] ∧ tokenValue (ascii ['9', '1']) = some 91) ∧
    (tokens (ascii ['9', '0', ' ', '1']) = [ascii ['9', '0'], ascii ['1']] ∧
      tokenValue (ascii ['9', '0']) = some (tagOf .loadConstant : Int) ∧ [ascii ['1']].length ≠ 2) ∧
    (tokens (ascii ['6', '2', ' ', '-', '1', ' ', '3']) = [ascii ['6', '2'], ascii ['-', '1'], ascii ['3']] ∧
      tokenValue (ascii ['6', '2']) = some (tagOf .writeMemory : Int) ∧ tokenValue (ascii ['-', '1']) = some (-1)) ∧
    ([ascii ['1'], ascii ['3']].map tokenValue = [1, 3].map (fun (v : Nat) => some (v : Int)) ∧
      fitsFields (widthsOf .writeMemory) [1, 3] = true) := by decide

theorem witness_AssembledLineDecodesToItsInstr :
    assembleLine (ascii ['1', '3', '7', ' ', '1', ' ', '0', ' ', '0']) = .ok (.sqrt 1 0 0) := by decide

theorem witness_CanonicalLineAssembles :
    WellFormed (.readMemory 0 10 65535) ∧
    canonicalLine (.readMemory 0 10 65535) =
      ascii ['1', ' ', '0', ' ', '1', '0', ' ', '6', '5', '5', '3', '5'] := by decide

/-- At the start of a text and after a line feed, a blank and a comment (neither holds a line feed); and a text that
fails. -/
theorem witness_CommentsAndBlanksChangeNothing :
    (ascii ['9', '\n']).getLast? = some lineFeed ∧ lineFeed ∉ ascii [' ', '#', 'x'] ∧ lineFeed ∉ ascii ['\t', ' '] ∧
    isSkipped (trim (ascii [' ', '#', 'x'])) = true ∧ isSkipped (trim (ascii ['\t', ' '])) = true ∧
    encodeProgram (ascii ['9', '\n'] ++ ascii []) = .error ⟨.unknownOpcode, 1, ascii ['9']⟩ := by decide

theorem witness_AssembledProgramRunsAsItsTuples :
    encodeProgram (ascii ['6', '2', ' ', '3', ' ', '3']) =
      .ok ([0x3E, 0, 0, 0, 3, 0, 0, 0, 3],
        [⟨ascii ['6', '2', ' ', '3', ' ', '3'], hex [0x3E, 0, 0, 0, 3, 0, 0, 0, 3]⟩]) := by decide

theorem witness_RangeStringForm : parseRange (ascii ['5', '-', '6']) = none ∧
    parseRange (ascii ['5', ':', '6', ':', '7']) = none := by decide

/-- The range `1023:1024` lies in memory; `1023:1025` leaves it at 1024. -/
theorem witness_ReportIsAscendingMapping :
    InBounds (cells []) 1023 ∧ ¬InBounds (cells []) 1024 ∧
    report (cells []) ⟨1023, 1024⟩ = .ok [(1023, 0)] ∧
    report (cells []) ⟨1023, 1025⟩ = .error (.memoryOutOfBounds 1024) := by decide

theorem witness_DecoderWritesOnlyGoodReports :
    parseRange (ascii ['0', ':', '1']) = some ⟨0, 1⟩ ∧
    (runProgram {} [0x07]).status = .faulted ⟨0, 7, .unknownOpcode⟩ := by decide

theorem witness_EncoderWritesAllOrNothing :
    encodeProgram (ascii []) = .ok ([], []) ∧
    encodeProgram (ascii ['9', '1']) = .error ⟨.unknownOpcode, 1, ascii ['9', '1']⟩ := by decide

theorem witness_HexSpellsBytes : 9 < 10 ∧ 10 ≤ 15 ∧ 15 < 16 := by decide

/-- A blank and a comment are skipped; `#` alone is a token that is not numeric. -/
theorem witness_BlankAndCommentLines :
    isSkipped (trim (ascii ['\t', ' '])) = true ∧ isSkipped (trim (ascii [' ', '#', '9'])) = true ∧
    0x23 ∈ ascii ['9', '#'] := by decide

theorem witness_TokensAreMaximalRuns : isSkipped (trim (ascii [' ', '9', '#'])) = false := by decide

/-- The highest two cells. -/
theorem witness_ReportJsonKeysAndValues : ∀ a : Int, 1022 ≤ a → a < 1024 → InBounds (cells [(1023, 5)]) a := by
  intro a h h'
  exact ⟨by omega, by simpa [cells] using h'⟩

theorem witness_LogJsonMembersPerLine :
    encodeProgram (ascii ['#', '\n', '6', '2', ' ', '3', ' ', '3', ' ']) =
      .ok ([0x3E, 0, 0, 0, 3, 0, 0, 0, 3],
        [⟨ascii ['6', '2', ' ', '3', ' ', '3'], hex [0x3E, 0, 0, 0, 3, 0, 0, 0, 3]⟩]) := by decide

end Sys2Proof.Tests
end

section
/-! Proofs of the scope family: the big-endian fields of R15 and their inverse. -/

namespace Sys2Proof

/-- R15 as a closed form: each byte counts by its big-endian weight. -/
theorem beValue_eq_sum (bs : List Byte) :
    beValue bs = ∑ j ∈ Finset.range bs.length, (bs.getD j 0).toNat * 256 ^ (bs.length - 1 - j) := by
  induction bs with
  | nil => rfl
  | cons b bs ih =>
    rw [beValue, ih, List.length_cons, Finset.sum_range_succ', add_comm]
    simp [Nat.sub_sub, Nat.add_comm 1]

/-- A field of `k` bytes reads back the value it was written from, when the value fits (R15). -/
theorem beValue_beBytes_of_lt {k v : Nat} (h : v < 256 ^ k) : beValue (beBytes k v) = v := by
  rw [beValue_beBytes_mod, Nat.mod_eq_of_lt h]

/-- A field of `k` bytes does not see what stands above its top byte. -/
theorem beBytes_mul_pow_add (k c v : Nat) : beBytes k (c * 256 ^ k + v) = beBytes k v := by
  induction k generalizing c with
  | zero => rfl
  | succ k ih =>
    have hsplit : c * 256 ^ (k + 1) + v = c * 256 * 256 ^ k + v := by ring
    have hquot : (c * 256 * 256 ^ k + v) / 256 ^ k = c * 256 + v / 256 ^ k := by
      rw [Nat.add_comm, Nat.add_mul_div_right _ _ (by positivity), Nat.add_comm]
    have hbyte : BitVec.ofNat 8 (c * 256 + v / 256 ^ k) = BitVec.ofNat 8 (v / 256 ^ k) := by
      apply BitVec.eq_of_toNat_eq
      simp [Nat.mul_add_mod_self_right]
    rw [beBytes, beBytes, hsplit, hquot, hbyte, ih]

/-- Writing a sequence's value at its own length gives the sequence back (R15). -/
theorem beBytes_beValue (bs : List Byte) : beBytes bs.length (beValue bs) = bs := by
  induction bs with
  | nil => rfl
  | cons b bs ih =>
    have htop : (b.toNat * 256 ^ bs.length + beValue bs) / 256 ^ bs.length = b.toNat := by
      rw [Nat.add_comm, Nat.add_mul_div_right _ _ (by positivity), Nat.div_eq_of_lt (beValue_lt bs), Nat.zero_add]
    rw [List.length_cons, beBytes, beValue, htop, beBytes_mul_pow_add, ih, BitVec.ofNat_toNat, BitVec.setWidth_eq]

/-- Settles O1: the sum by induction on the bytes, then the two directions of the inverse. -/
theorem bigEndianFieldsAndInverse : Obligations.BigEndianFieldsAndInverse :=
  ⟨beValue_eq_sum, fun k v h => ⟨beBytes_length k v, beValue_beBytes_of_lt h⟩, beBytes_beValue⟩

end Sys2Proof
end

section
/-! Proofs of the state family: the values every run starts from. -/

namespace Sys2Proof

open Machine

/-- At the start of a run every cell reads 0 (R42): no cell is listed, and an unlisted cell holds 0. -/
theorem read_start_mem (cfg : Config) (P : List Byte) (a : Nat) : (State.start cfg P).mem.read a = 0 := by
  rw [start_mem, read_nil]

/-- Settles O33: field by field, from the laws of the start state. -/
theorem runStartsZeroed : Obligations.RunStartsZeroed := fun cfg P =>
  ⟨start_pc cfg P, read_start_mem cfg P, start_status cfg P, start_prog cfg P⟩

end Sys2Proof
end

section
/-! Proofs of the memory family: the bounds checks of R53 and R54, and what a write leaves unchanged. -/

namespace Sys2Proof

open Machine

/-- A write at a nonnegative address leaves every cell that the address does not name (R54). -/
theorem read_write_toNat_of_ne (m : Memory) {a : Int} (v : Int) {b : Nat} (ha : 0 ≤ a) (hb : (b : Int) ≠ a) :
    (m.write a.toNat v).read b = m.read b := by
  have hcell : a.toNat ≠ b := by omega
  exact read_write_other m a.toNat b v hcell

/-- Settles O10: in bounds the new memory is the write of the named cell, out of bounds there is only the error. -/
theorem memWriteChangesOneCell : Obligations.MemWriteChangesOneCell := by
  intro s a v
  constructor
  · intro hin
    exact ⟨s.mem.write a.toNat v, memWrite_inBounds hin, read_write_same s.mem a.toNat v,
      fun _ hb => read_write_toNat_of_ne s.mem v hin.1 hb⟩
  · exact memWrite_outOfBounds

/-- Settles O9: one clause per outcome of the bounds check. -/
theorem memReadChecksBounds : Obligations.MemReadChecksBounds := fun _ _ =>
  ⟨memRead_inBounds, memRead_outOfBounds⟩

end Sys2Proof
end

section
/-! Proofs of the encoding family, part 1: the bytes of an instruction, and the round trip through the decoder that
makes a program's split unique. -/

namespace Sys2Proof

theorem encode_eq (i : Instr) :
    encode i = tagByte (opcodeOf i) :: encodeFields (widthsOf (opcodeOf i)) (operandsOf i) := rfl

/-- An instruction has one operand per field of its opcode (R72). -/
@[simp] theorem operandsOf_length (i : Instr) : (operandsOf i).length = (widthsOf (opcodeOf i)).length := by
  cases i <;> rfl

/-- An instruction is the one of its opcode with its own operands. -/
theorem instrOf_operandsOf (i : Instr) : instrOf (opcodeOf i) (fun j => (operandsOf i).getD j 0) = i := by
  cases i <;> rfl

theorem encodeFields_eq_flatten (ws vs : List Nat) : encodeFields ws vs = (List.zipWith beBytes ws vs).flatten := by
  induction ws generalizing vs with
  | nil => rfl
  | cons w ws ih =>
    cases vs with
    | nil => rfl
    | cons v vs => simp [encodeFields, ih]

theorem encodeFields_length {ws vs : List Nat} (h : vs.length = ws.length) : (encodeFields ws vs).length = ws.sum := by
  induction ws generalizing vs with
  | nil => rfl
  | cons w ws ih =>
    cases vs with
    | nil => cases h
    | cons v vs => simp [encodeFields, ih (Nat.succ.inj h)]

/-- The length of an encoding is its opcode's, whatever the operands (R81). -/
theorem encode_length (i : Instr) : (encode i).length = lengthOf (opcodeOf i) := by
  rw [encode_eq, List.length_cons, encodeFields_length (operandsOf_length i), lengthOf, Nat.add_comm]

/-- Reading field `j` of fields that were written from fitting values gives value `j`; past the last field both
are 0. -/
theorem beValue_field_encodeFields {ws vs : List Nat} (h : fitsFields ws vs = true) (rest : List Byte) (j : Nat) :
    beValue (((encodeFields ws vs ++ rest).drop (ws.take j).sum).take (ws.getD j 0)) = vs.getD j 0 := by
  induction ws generalizing vs j with
  | nil =>
    cases vs with
    | nil => simp [beValue]
    | cons v vs => cases h
  | cons w ws ih =>
    cases vs with
    | nil => cases h
    | cons v vs =>
      obtain ⟨hv, hvs⟩ : v < 256 ^ w ∧ fitsFields ws vs = true := by simpa [fitsFields] using h
      cases j with
      | zero => simp [encodeFields, List.take_left', beValue_beBytes_of_lt hv]
      | succ j =>
        have hdrop : (encodeFields (w :: ws) (v :: vs) ++ rest).drop (w + (ws.take j).sum) =
            (encodeFields ws vs ++ rest).drop (ws.take j).sum := by
          rw [encodeFields, List.append_assoc, ← List.drop_drop, List.drop_left' (beBytes_length w v)]
        simpa [hdrop] using ih hvs j

/-- The decoder reads back the operands of a well-formed instruction from its fields, whatever bytes follow. -/
theorem operandAt_encodeFields {i : Instr} (h : WellFormed i) (rest : List Byte) :
    operandAt (opcodeOf i) (encodeFields (widthsOf (opcodeOf i)) (operandsOf i) ++ rest) =
      fun j => (operandsOf i).getD j 0 :=
  funext (beValue_field_encodeFields h rest)

/-- The round trip: a well-formed instruction's bytes decode to it and its length, whatever bytes follow. -/
theorem decodeBytes_encode_append {i : Instr} (h : WellFormed i) (rest : List Byte) :
    decodeBytes (encode i ++ rest) = .ok (i, (encode i).length) := by
  have hlen : ¬(encodeFields (widthsOf (opcodeOf i)) (operandsOf i) ++ rest).length < lengthOf (opcodeOf i) - 1 := by
    rw [List.length_append, encodeFields_length (operandsOf_length i), lengthOf]
    omega
  rw [encode_length, encode_eq, List.cons_append, decodeBytes_tagByte, if_neg hlen, operandAt_encodeFields h,
    instrOf_operandsOf]

/-- Of two byte sequences that begin with well-formed instructions and are the same, the first instructions are the
same, and so is what follows them. -/
theorem encode_append_inj {i j : Instr} (hi : WellFormed i) (hj : WellFormed j) {r r' : List Byte}
    (h : encode i ++ r = encode j ++ r') : i = j ∧ r = r' := by
  have hok : Except.ok (i, (encode i).length) = (Except.ok (j, (encode j).length) : Except DecodeError _) := by
    rw [← decodeBytes_encode_append hi r, h, decodeBytes_encode_append hj r']
  have hij : i = j := congrArg Prod.fst (Except.ok.inj hok)
  subst hij
  exact ⟨rfl, List.append_cancel_left h⟩

/-- A sequence of well-formed instructions can be told from its bytes (R81). -/
theorem flatMap_encode_inj {is js : List Instr} (his : ∀ i ∈ is, WellFormed i) (hjs : ∀ j ∈ js, WellFormed j)
    (h : is.flatMap encode = js.flatMap encode) : is = js := by
  induction is generalizing js with
  | nil =>
    cases js with
    | nil => rfl
    | cons j js => simp [encode_eq] at h
  | cons i is ih =>
    cases js with
    | nil => simp [encode_eq] at h
    | cons j js =>
      rw [List.forall_mem_cons] at his hjs
      rw [List.flatMap_cons, List.flatMap_cons] at h
      obtain ⟨rfl, hrest⟩ := encode_append_inj his.1 hjs.1 h
      rw [ih his.2 hjs.2 hrest]

/-- Settles O7: the fixed length of each encoding, and injectivity on programs by induction over the sequence. -/
theorem programSplitIsUnique : Obligations.ProgramSplitIsUnique :=
  ⟨encode_length, fun _ _ => flatMap_encode_inj⟩

end Sys2Proof
end

section
/-! Proofs of the encoding family, part 2: the opcode table, the decoder at every offset, and the operands as bit
ranges of the instruction word. -/

namespace Sys2Proof

/-- The opcode table read by tag value (R72). -/
theorem opcodeOfTag_eq (t : Nat) :
    opcodeOfTag t = if t = 90 then some .loadConstant else if t = 1 then some .readMemory
      else if t = 62 then some .writeMemory else if t = 137 then some .sqrt else none := by
  split_ifs with h90 h1 h62 h137
  · rw [h90]; rfl
  · rw [h1]; rfl
  · rw [h62]; rfl
  · rw [h137]; rfl
  · simp [opcodeOfTag, allOpcodes, tagOf, Ne.symm h90, Ne.symm h1, Ne.symm h62, Ne.symm h137]

/-- Settles O2: the length of the opcode that each tag names. -/
theorem lengthFollowsFromTag : Obligations.LengthFollowsFromTag := by
  intro t
  rw [opcodeOfTag_eq]
  split_ifs <;> rfl

/-- A tag that is none of the four has no opcode (R82). -/
theorem opcodeOfTag_eq_none {t : Nat} (h90 : t ≠ 90) (h1 : t ≠ 1) (h62 : t ≠ 62) (h137 : t ≠ 137) :
    opcodeOfTag t = none := by
  rw [opcodeOfTag_eq, if_neg h90, if_neg h1, if_neg h62, if_neg h137]

theorem decodeAt_eq_cons {P : List Byte} {pc : Nat} (h : pc < P.length) :
    decodeAt P pc = decodeBytes (P[pc] :: P.drop (pc + 1)) := by
  rw [decodeAt, List.drop_eq_getElem_cons h]

/-- `decode(P, pc)` on a known tag: truncated, or the operands read from their offsets after `pc` (R80). -/
theorem decodeAt_of_tagByte (op : Opcode) {P : List Byte} {pc : Nat} (h : pc < P.length) (htag : P[pc] = tagByte op) :
    decodeAt P pc =
      if P.length - pc < lengthOf op then .error (.truncated (tagByte op) (lengthOf op - 1) (P.length - pc - 1))
      else .ok (instrOf op fun j =>
        beValue ((P.drop (pc + 1 + ((widthsOf op).take j).sum)).take ((widthsOf op).getD j 0)), lengthOf op) := by
  have hrest : (P.drop (pc + 1)).length = P.length - pc - 1 := by rw [List.length_drop]; omega
  have hshort : (P.drop (pc + 1)).length < lengthOf op - 1 ↔ P.length - pc < lengthOf op := by
    rw [hrest, lengthOf]; omega
  have hoperand : operandAt op (P.drop (pc + 1)) = fun j =>
      beValue ((P.drop (pc + 1 + ((widthsOf op).take j).sum)).take ((widthsOf op).getD j 0)) := by
    funext j
    rw [operandAt, List.drop_drop]
  rw [decodeAt_eq_cons h, htag, decodeBytes_tagByte, hoperand, hrest]
  simp only [← hrest, hshort]

/-- `decode(P, pc)` on a tag that is none of the four: unknown, however many bytes follow (R80, R82). -/
theorem decodeAt_of_unknown {P : List Byte} {pc : Nat} (h : pc < P.length) (h90 : P[pc] ≠ 90) (h1 : P[pc] ≠ 1)
    (h62 : P[pc] ≠ 62) (h137 : P[pc] ≠ 137) : decodeAt P pc = .error (.unknownOpcode P[pc]) := by
  have hnone : opcodeOfTag P[pc].toNat = none := by
    apply opcodeOfTag_eq_none <;> bv_omega
  rw [decodeAt_eq_cons h, decodeBytes, hnone]

/-- Settles O3: one case per tag of the table, and the case of no tag. -/
theorem decodeAtEveryOffset : Obligations.DecodeAtEveryOffset := by
  intro P pc h
  split_ifs with h90 hshort h1 hshort h62 hshort h137 hshort
  · rw [decodeAt_of_tagByte .loadConstant h h90]; exact if_pos hshort
  · rw [decodeAt_of_tagByte .loadConstant h h90]; exact if_neg hshort
  · rw [decodeAt_of_tagByte .readMemory h h1]; exact if_pos hshort
  · rw [decodeAt_of_tagByte .readMemory h h1]; exact if_neg hshort
  · rw [decodeAt_of_tagByte .writeMemory h h62]; exact if_pos hshort
  · rw [decodeAt_of_tagByte .writeMemory h h62]; exact if_neg hshort
  · rw [decodeAt_of_tagByte .sqrt h h137]; exact if_pos hshort
  · rw [decodeAt_of_tagByte .sqrt h h137]; exact if_neg hshort
  · exact decodeAt_of_unknown h h90 h1 h62 h137

/-- A sequence's value is its first part's, shifted past the second part, plus the second part's. -/
theorem beValue_append (a b : List Byte) : beValue (a ++ b) = beValue a * 256 ^ b.length + beValue b := by
  induction a with
  | nil => simp [beValue]
  | cons x a ih =>
    rw [List.cons_append, beValue, beValue, ih, List.length_append, pow_add]
    ring

theorem beValue_append_div (a b : List Byte) : beValue (a ++ b) / 256 ^ b.length = beValue a := by
  rw [beValue_append, Nat.add_comm, Nat.add_mul_div_right _ _ (by positivity), Nat.div_eq_of_lt (beValue_lt b),
    Nat.zero_add]

theorem beValue_append_mod (a b : List Byte) : beValue (a ++ b) % 256 ^ b.length = beValue b := by
  rw [beValue_append, Nat.mul_add_mod_self_right, Nat.mod_eq_of_lt (beValue_lt b)]

/-- The field of `k` bytes with `m` bytes after it is a bit range of the whole number. -/
theorem beValue_take_drop {bs : List Byte} {n k m : Nat} (h : bs.length = n + k + m) :
    beValue ((bs.drop n).take k) = beValue bs / 256 ^ m % 256 ^ k := by
  have htail : ((bs.drop n).drop k).length = m := by rw [List.length_drop, List.length_drop]; omega
  have hfield : ((bs.drop n).take k).length = k := by rw [List.length_take, List.length_drop]; omega
  have hcut : bs = (bs.take n ++ (bs.drop n).take k) ++ (bs.drop n).drop k := by simp
  have hdiv : beValue bs / 256 ^ m = beValue (bs.take n ++ (bs.drop n).take k) := by
    conv_lhs => rw [hcut, ← htail]
    exact beValue_append_div _ _
  have hmod := beValue_append_mod (bs.take n) ((bs.drop n).take k)
  rw [hdiv, ← hmod, hfield]

/-- The fields before field `j`, field `j` and the fields after it make up all the fields. -/
theorem sum_take_getD_drop (ws : List Nat) (j : Nat) :
    (ws.take j).sum + ws.getD j 0 + (ws.drop (j + 1)).sum = ws.sum := by
  induction ws generalizing j with
  | nil => simp
  | cons w ws ih =>
    cases j with
    | zero => simp
    | succ j => simp [← ih j, Nat.add_assoc]

/-- An instruction word whose top byte is a tag decodes to that opcode; operand `j` is the bit range with the widths
of the later fields below it (R73-R75). -/
theorem decodeBytes_of_word (op : Opcode) {bs : List Byte} (hlen : bs.length = lengthOf op)
    (htag : beValue bs / 256 ^ (lengthOf op - 1) = tagOf op) :
    decodeBytes bs = .ok (instrOf op fun j =>
      beValue bs / 256 ^ ((widthsOf op).drop (j + 1)).sum % 256 ^ (widthsOf op).getD j 0, lengthOf op) := by
  obtain ⟨t, rest, rfl⟩ : ∃ t rest, bs = t :: rest := by
    apply List.exists_cons_of_length_pos
    rw [hlen, lengthOf]; omega
  have hrest : rest.length = lengthOf op - 1 := by rw [← hlen]; rfl
  have htop : t = tagByte op := by
    apply BitVec.eq_of_toNat_eq
    have hdiv := beValue_append_div [t] rest
    rw [hrest, List.singleton_append, htag] at hdiv
    simpa [beValue] using hdiv.symm
  have hoperand : operandAt op rest = fun j =>
      beValue (t :: rest) / 256 ^ ((widthsOf op).drop (j + 1)).sum % 256 ^ (widthsOf op).getD j 0 := by
    funext j
    have hfields := sum_take_getD_drop (widthsOf op) j
    rw [← beValue_take_drop (n := ((widthsOf op).take j).sum + 1) (by rw [hlen, lengthOf]; omega),
      operandAt, List.drop_succ_cons]
  rw [← hoperand, htop, decodeBytes_tagByte, if_neg (by omega)]

/-- Settles O4: the word's fields, one clause per opcode; `256` is one byte's `2 ^ 8`. -/
theorem operandsAreBitRanges : Obligations.OperandsAreBitRanges := by
  refine ⟨?_, ?_, ?_, ?_⟩ <;> intro bs hlen htag
  · simpa [instrOf, widthsOf, lengthOf] using decodeBytes_of_word .loadConstant hlen htag
  · simpa [instrOf, widthsOf, lengthOf] using decodeBytes_of_word .writeMemory hlen htag
  · simpa [instrOf, widthsOf, lengthOf] using decodeBytes_of_word .readMemory hlen htag
  · simpa [instrOf, widthsOf, lengthOf] using decodeBytes_of_word .sqrt hlen htag

end Sys2Proof
end

section
/-! Proofs of the encoding family, part 3: how the Encoder reads a text. Lines, trimming, skipped lines, tokens and
integer tokens. -/

namespace Sys2Proof.Assembler

/-! ### Physical lines (R91) -/

theorem splitAtByte_cons_sep (sep : Byte) (t : Text) : splitAtByte sep (sep :: t) = [] :: splitAtByte sep t := by
  simp [splitAtByte]

theorem splitAtByte_cons_of_ne {sep b : Byte} {t p : Text} {ps : List Text} (hb : b ≠ sep)
    (hsplit : splitAtByte sep t = p :: ps) : splitAtByte sep (b :: t) = (b :: p) :: ps := by
  simp [splitAtByte, hb, hsplit]

/-- No piece holds the separator, and the pieces joined by it give the text. -/
theorem splitAtByte_spec (sep : Byte) (t : Text) :
    (∀ p ∈ splitAtByte sep t, sep ∉ p) ∧ List.intercalate [sep] (splitAtByte sep t) = t := by
  induction t with
  | nil => simp [splitAtByte]
  | cons b t ih =>
    obtain ⟨p, ps, hsplit⟩ := List.exists_cons_of_ne_nil (splitAtByte_ne_nil sep t)
    rw [hsplit] at ih
    obtain ⟨hmem, hjoin⟩ := ih
    by_cases hb : b = sep
    · subst hb
      rw [splitAtByte_cons_sep, hsplit]
      exact ⟨List.forall_mem_cons.2 ⟨List.not_mem_nil, hmem⟩, by simp [List.intercalate_cons_cons, hjoin]⟩
    · rw [List.forall_mem_cons] at hmem
      rw [splitAtByte_cons_of_ne hb hsplit]
      refine ⟨List.forall_mem_cons.2 ⟨by simp [Ne.symm hb, hmem.1], hmem.2⟩, ?_⟩
      cases ps with
      | nil => simpa using hjoin
      | cons q qs => simpa [List.intercalate_cons_cons] using hjoin

/-- Joining pieces by a separator that none of them holds, then cutting, gives the pieces back. -/
theorem splitAtByte_intercalate {sep : Byte} {ps : List Text} (hne : ps ≠ []) (hps : ∀ p ∈ ps, sep ∉ p) :
    splitAtByte sep (List.intercalate [sep] ps) = ps := by
  induction ps with
  | nil => exact absurd rfl hne
  | cons p ps ih =>
    rw [List.forall_mem_cons] at hps
    cases ps with
    | nil => rw [List.intercalate_singleton, splitAtByte_of_not_mem hps.1]
    | cons q qs =>
      rw [List.intercalate_cons_cons, List.append_assoc, List.singleton_append, splitAtByte_append_sep,
        splitAtByte_of_not_mem hps.1, ih (List.cons_ne_nil q qs) hps.2, List.singleton_append]

/-- Settles O51: cutting at line feeds and joining by them are inverse to each other. -/
theorem physicalLinesAreCutAtLineFeeds : Obligations.PhysicalLinesAreCutAtLineFeeds := by
  intro text lines
  constructor
  · rintro rfl
    obtain ⟨hmem, hjoin⟩ := splitAtByte_spec lineFeed text
    exact ⟨splitAtByte_ne_nil lineFeed text, hmem, hjoin.symm⟩
  · rintro ⟨hne, hmem, rfl⟩
    exact splitAtByte_intercalate hne hmem

/-! ### Trimming (R91) -/

/-- The model's whitespace test fails exactly off the list of R91. -/
theorem isSpace_eq_false_iff (b : Byte) : isSpace b = false ↔ b ∉ whitespace := by
  rw [← isSpace_iff, Bool.not_eq_true]

theorem trim_eq (t : Text) : trim t = (t.dropWhile isSpace).rdropWhile isSpace := rfl

/-- Dropping leading whitespace stops at the first other byte. -/
theorem dropWhile_isSpace_append {a u : Text} (ha : ∀ x ∈ a, isSpace x = true)
    (hu : ∀ x : Byte, u.head? = some x → isSpace x = false) : (a ++ u).dropWhile isSpace = u := by
  rw [List.dropWhile_append_of_pos ha]
  cases u with
  | nil => rfl
  | cons x u => exact List.dropWhile_cons_of_neg (by simp [hu x rfl])

/-- Whitespace alone is trimmed to nothing. -/
theorem trim_of_all_isSpace {t : Text} (h : ∀ x ∈ t, isSpace x = true) : trim t = [] := by
  rw [trim, List.dropWhile_eq_nil_iff.2 h]
  rfl

/-- Whitespace around a text that has none at its ends is what trimming removes. -/
theorem trim_append_append {a u b : Text} (ha : ∀ x ∈ a, isSpace x = true) (hb : ∀ x ∈ b, isSpace x = true)
    (hhead : ∀ x : Byte, u.head? = some x → isSpace x = false)
    (hlast : ∀ x : Byte, u.getLast? = some x → isSpace x = false) : trim (a ++ u ++ b) = u := by
  cases u with
  | nil => exact trim_of_all_isSpace (by simpa [or_imp, forall_and] using ⟨ha, hb⟩)
  | cons x u =>
    rw [trim, List.append_assoc, dropWhile_isSpace_append ha (u := x :: u ++ b) hhead, List.reverse_append,
      dropWhile_isSpace_append (by simpa using hb) (by rwa [List.head?_reverse]), List.reverse_reverse]

/-- What trimming leaves does not begin with whitespace. -/
theorem isSpace_of_head?_trim {t : Text} {x : Byte} (h : (trim t).head? = some x) : isSpace x = false := by
  obtain ⟨r, hr⟩ := List.rdropWhile_prefix isSpace (t.dropWhile isSpace)
  have hhead : (t.dropWhile isSpace).head? = some x := by
    rw [← hr, ← trim_eq, List.head?_append, h, Option.some_or]
  simpa [hhead] using List.head?_dropWhile_not isSpace t

/-- What trimming leaves does not end with whitespace. -/
theorem isSpace_of_getLast?_trim {t : Text} {x : Byte} (h : (trim t).getLast? = some x) : isSpace x = false := by
  rw [trim, List.getLast?_reverse] at h
  simpa [h] using List.head?_dropWhile_not isSpace (t.dropWhile isSpace).reverse

/-- Trimming removes whitespace at both ends and nothing else. -/
theorem exists_eq_append_trim_append (t : Text) :
    ∃ a b : Text, t = a ++ trim t ++ b ∧ (∀ x ∈ a, isSpace x = true) ∧ ∀ x ∈ b, isSpace x = true := by
  refine ⟨t.takeWhile isSpace, (t.dropWhile isSpace).rtakeWhile isSpace, ?_,
    fun _ => List.mem_takeWhile_imp, fun _ => List.mem_rtakeWhile_imp⟩
  rw [trim_eq, List.append_assoc, List.rdropWhile_append_rtakeWhile, List.takeWhile_append_dropWhile]

/-- Settles O52: existence of the cut from the two drops, uniqueness from `trim_append_append`. -/
theorem trimStripsTheEnds : Obligations.TrimStripsTheEnds := by
  intro t u
  simp only [← isSpace_iff, Bool.not_eq_true, List.forall_mem_append]
  constructor
  · rintro rfl
    obtain ⟨a, b, hcut, ha, hb⟩ := exists_eq_append_trim_append t
    exact ⟨a, b, hcut, ⟨ha, hb⟩, fun _ => isSpace_of_head?_trim, fun _ => isSpace_of_getLast?_trim⟩
  · rintro ⟨a, b, rfl, ⟨ha, hb⟩, hhead, hlast⟩
    exact trim_append_append ha hb hhead hlast

/-! ### Integer tokens (R94) -/

/-- The number that digit bytes spell, as a sum by decimal weights. -/
def digitSum (ds : Text) : Nat := ∑ j ∈ Finset.range ds.length, ((ds.getD j 0).toNat - 0x30) * 10 ^ (ds.length - 1 - j)

theorem digitSum_natCast (ds : Text) : (digitSum ds : Int) =
    ∑ j ∈ Finset.range ds.length, (((ds.getD j 0).toNat - 0x30 : Nat) : Int) * 10 ^ (ds.length - 1 - j) := by
  simp [digitSum]

theorem digitSum_cons (d : Byte) (ds : Text) :
    digitSum (d :: ds) = (d.toNat - 0x30) * 10 ^ ds.length + digitSum ds := by
  rw [digitSum, digitSum, List.length_cons, Finset.sum_range_succ', add_comm]
  simp [Nat.sub_sub, Nat.add_comm 1]

/-- The model's left fold over digits is their sum by decimal weights, after what is already read. -/
theorem foldl_digits_eq (ds : Text) (n : Nat) :
    ds.foldl (fun n d => 10 * n + (d.toNat - 0x30)) n = n * 10 ^ ds.length + digitSum ds := by
  induction ds generalizing n with
  | nil => simp [digitSum]
  | cons d ds ih =>
    rw [List.foldl_cons, ih, digitSum_cons, List.length_cons, pow_succ]
    ring

theorem isDigit_iff (b : Byte) : isDigit b = true ↔ 0x30 ≤ b.toNat ∧ b.toNat ≤ 0x39 := decide_eq_true_iff

/-- A nonempty string of digits has its decimal value, and no other string has one. -/
theorem digitsValue_eq_some_iff (ds : Text) (n : Nat) :
    digitsValue ds = some n ↔ ds ≠ [] ∧ (∀ d ∈ ds, 0x30 ≤ d.toNat ∧ d.toNat ≤ 0x39) ∧ n = digitSum ds := by
  simp only [digitsValue, foldl_digits_eq, List.all_eq_true, isDigit_iff]
  split_ifs with h
  · simpa [h, eq_comm] using fun _ => h.2
  · simp only [false_iff]
    exact fun ⟨hne, hds, _⟩ => h ⟨hne, hds⟩

/-- A signed or unsigned reading `f` of digits has a value exactly when the digits do. -/
theorem digitsValue_map_eq_some_iff (f : Nat → Int) (ds : Text) (v : Int) :
    (digitsValue ds).map f = some v ↔
      ds ≠ [] ∧ (∀ d ∈ ds, 0x30 ≤ d.toNat ∧ d.toNat ≤ 0x39) ∧ v = f (digitSum ds) := by
  simp only [Option.map_eq_some_iff, digitsValue_eq_some_iff]
  constructor
  · rintro ⟨n, ⟨hne, hds, rfl⟩, rfl⟩
    exact ⟨hne, hds, rfl⟩
  · rintro ⟨hne, hds, rfl⟩
    exact ⟨digitSum ds, ⟨hne, hds, rfl⟩, rfl⟩

theorem tokenValue_plus (ds : Text) : tokenValue (0x2B :: ds) = (digitsValue ds).map Int.ofNat := rfl

theorem tokenValue_minus (ds : Text) : tokenValue (0x2D :: ds) = (digitsValue ds).map fun (n : Nat) => -(n : Int) := rfl

theorem tokenValue_of_no_sign {t : Text} (hplus : t.head? ≠ some 0x2B) (hminus : t.head? ≠ some 0x2D) :
    tokenValue t = (digitsValue t).map Int.ofNat := by
  cases t with
  | nil => rfl
  | cons b ds => rw [tokenValue, if_neg (by simpa using hplus), if_neg (by simpa using hminus)]

/-- Settles O38: one case per sign. -/
theorem numericTokenGrammar : Obligations.NumericTokenGrammar := by
  intro t v
  simp only [← digitSum_natCast]
  constructor
  · intro h
    by_cases hplus : t.head? = some 0x2B
    · obtain ⟨ds, rfl⟩ := List.head?_eq_some_iff.1 hplus
      obtain ⟨hne, hds, rfl⟩ := (digitsValue_map_eq_some_iff _ ds v).1 h
      exact ⟨[0x2B], ds, rfl, by simp, hne, hds, by simp⟩
    · by_cases hminus : t.head? = some 0x2D
      · obtain ⟨ds, rfl⟩ := List.head?_eq_some_iff.1 hminus
        obtain ⟨hne, hds, rfl⟩ := (digitsValue_map_eq_some_iff _ ds v).1 h
        exact ⟨[0x2D], ds, rfl, by simp, hne, hds, by simp⟩
      · rw [tokenValue_of_no_sign hplus hminus] at h
        obtain ⟨hne, hds, rfl⟩ := (digitsValue_map_eq_some_iff _ t v).1 h
        exact ⟨[], t, rfl, by simp, hne, hds, by simp⟩
  · rintro ⟨sign, ds, rfl, hsign, hne, hds, rfl⟩
    rcases hsign with rfl | rfl | rfl
    · have hdigit {b : Byte} (hb : ds.head? = some b) : 0x30 ≤ b.toNat := (hds b (List.mem_of_head? hb)).1
      rw [List.nil_append, tokenValue_of_no_sign (fun h => absurd (hdigit h) (by decide))
        (fun h => absurd (hdigit h) (by decide))]
      exact (digitsValue_map_eq_some_iff _ ds _).2 ⟨hne, hds, by simp⟩
    · rw [List.singleton_append, tokenValue_plus]
      exact (digitsValue_map_eq_some_iff _ ds _).2 ⟨hne, hds, by simp⟩
    · rw [List.singleton_append, tokenValue_minus]
      exact (digitsValue_map_eq_some_iff _ ds _).2 ⟨hne, hds, by simp⟩

/-! ### Skipped lines (R92) -/

theorem isSkipped_iff (s : Text) : isSkipped s = true ↔ s = [] ∨ s.head? = some 0x23 := by
  simp [isSkipped, hashSign]

/-- The first byte that is no whitespace is the first byte of the trimmed line. -/
theorem head?_trim_append_cons {a : Text} {x : Byte} (ha : ∀ y ∈ a, isSpace y = true) (hx : isSpace x = false)
    (rest : Text) : (trim (a ++ x :: rest)).head? = some x := by
  have hdrop : (a ++ x :: rest).dropWhile isSpace = x :: rest :=
    dropWhile_isSpace_append ha (by rintro y ⟨⟩; exact hx)
  obtain ⟨r, hr⟩ := List.rdropWhile_prefix isSpace (x :: rest)
  have hne : (x :: rest).rdropWhile isSpace ≠ [] := by
    rw [Ne, List.rdropWhile_eq_nil_iff]
    exact fun h => by simp [h x List.mem_cons_self] at hx
  rw [trim_eq, hdrop]
  obtain ⟨y, ys, hy⟩ := List.exists_cons_of_ne_nil hne
  rw [hy] at hr ⊢
  rw [(List.cons.inj hr).1]
  rfl

/-- A line is skipped when it is whitespace alone or its first other byte is `#`. -/
theorem isSkipped_trim_iff (raw : Text) : isSkipped (trim raw) = true ↔
    (∀ x ∈ raw, isSpace x = true) ∨ ∃ a rest : Text, raw = a ++ 0x23 :: rest ∧ ∀ x ∈ a, isSpace x = true := by
  rw [isSkipped_iff]
  constructor
  · obtain ⟨a, b, hcut, ha, hb⟩ := exists_eq_append_trim_append raw
    rintro (hnil | hhash)
    · left
      rw [hcut, hnil, List.append_nil]
      exact List.forall_mem_append.2 ⟨ha, hb⟩
    · right
      obtain ⟨u, hu⟩ := List.head?_eq_some_iff.1 hhash
      exact ⟨a, u ++ b, by rw [hcut, hu]; simp, ha⟩
  · rintro (hblank | ⟨a, rest, rfl, ha⟩)
    · exact .inl (trim_of_all_isSpace hblank)
    · exact .inr (head?_trim_append_cons ha rfl rest)

theorem encodeLine_of_skipped (st : EncoderState) {raw : Text} (h : isSkipped (trim raw) = true) :
    encodeLine st raw = .ok { st with line := st.line + 1 } := by
  rw [encodeLine, if_pos h]

/-- No byte of a numeric token is `#`. -/
theorem tokenValue_of_mem_hash {t : Text} (h : 0x23 ∈ t) : tokenValue t = none := by
  by_contra hne
  obtain ⟨v, hv⟩ := Option.ne_none_iff_exists'.1 hne
  obtain ⟨sign, ds, rfl, hsign, -, hds, -⟩ := (numericTokenGrammar t v).1 hv
  rcases List.mem_append.1 h with hmem | hmem
  · rcases hsign with rfl | rfl | rfl <;> simp at hmem
  · exact absurd (hds _ hmem).1 (by decide)

/-- Settles O53: which lines are skipped, what skipping does, and that a `#` is in no numeric token. -/
theorem blankAndCommentLines : Obligations.BlankAndCommentLines := by
  refine ⟨fun raw => ?_, fun st _ => encodeLine_of_skipped st, fun _ => tokenValue_of_mem_hash⟩
  simpa only [isSpace_iff] using isSkipped_trim_iff raw

/-! ### Tokens (R93) -/

/-- `s` is whitespace, then the tokens `ts`, each followed by its gap of whitespace, nonempty but for the last. -/
def SplitsInto (s : Text) (ts : List Text) : Prop :=
  ∃ (lead : Text) (gaps : List Text), s = lead ++ (ts.zip gaps).flatMap (fun p => p.1 ++ p.2) ∧
    gaps.length = ts.length ∧ (∀ g ∈ lead :: gaps, ∀ x ∈ g, isSpace x = true) ∧ (∀ g ∈ gaps.dropLast, g ≠ []) ∧
    ∀ t ∈ ts, t ≠ [] ∧ ∀ x ∈ t, isSpace x = false

theorem splitsInto_nil : SplitsInto [] [] := ⟨[], [], by simp⟩

/-- More whitespace in front belongs to the leading whitespace. -/
theorem SplitsInto.cons_space {s : Text} {ts : List Text} (h : SplitsInto s ts) {b : Byte} (hb : isSpace b = true) :
    SplitsInto (b :: s) ts := by
  obtain ⟨lead, gaps, rfl, hlen, hspace, hgaps, htokens⟩ := h
  exact ⟨b :: lead, gaps, rfl, hlen, by simpa [hb] using hspace, hgaps, htokens⟩

/-- A token in front of a text that is empty or begins with whitespace is its first token: the text's leading
whitespace becomes the token's gap. -/
theorem SplitsInto.append_token {s t : Text} {ts : List Text} (h : SplitsInto s ts) (hne : t ≠ [])
    (ht : ∀ x ∈ t, isSpace x = false) (hs : ∀ x : Byte, s.head? = some x → isSpace x = true) :
    SplitsInto (t ++ s) (t :: ts) := by
  obtain ⟨lead, gaps, rfl, hlen, hspace, hgaps, htokens⟩ := h
  refine ⟨[], lead :: gaps, by simp, by simp [hlen], by simpa using hspace, ?_,
    List.forall_mem_cons.2 ⟨⟨hne, ht⟩, htokens⟩⟩
  cases gaps with
  | nil => simp
  | cons g gaps =>
    obtain ⟨u, us, rfl⟩ := List.exists_cons_of_length_eq_add_one hlen.symm
    rw [List.dropLast_cons_cons, List.forall_mem_cons]
    refine ⟨?_, hgaps⟩
    rintro rfl
    obtain ⟨hu, hu'⟩ := htokens u List.mem_cons_self
    obtain ⟨x, u, rfl⟩ := List.exists_cons_of_ne_nil hu
    have hspaceX : isSpace x = true := hs x (by simp)
    rw [hu' x List.mem_cons_self] at hspaceX
    cases hspaceX

/-- The tokens found split the text, whatever token has been begun. -/
theorem splitsInto_tokensFrom (s cur : Text) (hcur : ∀ x ∈ cur, isSpace x = false) :
    SplitsInto (cur.reverse ++ s) (tokensFrom cur s) := by
  induction s generalizing cur with
  | nil =>
    by_cases hnil : cur = []
    · simpa [tokensFrom, hnil] using splitsInto_nil
    · simpa [tokensFrom, hnil] using
        splitsInto_nil.append_token (t := cur.reverse) (by simpa) (by simpa using hcur) (by simp)
  | cons b s ih =>
    by_cases hb : isSpace b = true
    · have hrest : SplitsInto (b :: s) (tokensFrom [] s) := (ih [] (by simp)).cons_space hb
      by_cases hnil : cur = []
      · simpa [tokensFrom, hb, hnil] using hrest
      · simpa [tokensFrom, hb, hnil] using
          hrest.append_token (t := cur.reverse) (by simpa) (by simpa using hcur) (by simpa using hb)
    · simpa [tokensFrom, hb] using ih (b :: cur) (List.forall_mem_cons.2 ⟨by simpa using hb, hcur⟩)

/-- Tokens with their gaps are read back as they stand. -/
theorem tokensFrom_zip {ts gaps : List Text} (hlen : gaps.length = ts.length)
    (hspace : ∀ g ∈ gaps, ∀ x ∈ g, isSpace x = true) (hgaps : ∀ g ∈ gaps.dropLast, g ≠ [])
    (htokens : ∀ t ∈ ts, t ≠ [] ∧ ∀ x ∈ t, isSpace x = false) :
    tokensFrom [] ((ts.zip gaps).flatMap fun p => p.1 ++ p.2) = ts := by
  induction ts generalizing gaps with
  | nil => rfl
  | cons t ts ih =>
    obtain ⟨g, gaps, rfl⟩ := List.exists_cons_of_length_eq_add_one hlen
    rw [List.forall_mem_cons] at hspace htokens
    obtain ⟨⟨hne, ht⟩, htokens⟩ := htokens
    replace hlen : gaps.length = ts.length := Nat.succ.inj hlen
    rw [List.zip_cons_cons, List.flatMap_cons, List.append_assoc, tokensFrom_append ht, List.append_nil]
    by_cases hg : g = []
    · have hlast : gaps = [] := by
        cases gaps with
        | nil => rfl
        | cons g' gaps => exact absurd hg (hgaps g (by simp))
      subst hg hlast
      obtain rfl : ts = [] := List.length_eq_zero_iff.1 hlen.symm
      simp [tokensFrom, hne]
    · have hgaps : ∀ g' ∈ gaps.dropLast, g' ≠ [] := by
        cases gaps with
        | nil => simp
        | cons g' gaps => exact fun x hx => hgaps x (by simp [List.dropLast_cons_cons, hx])
      rw [tokensFrom_end (by simpa) hg hspace.1, List.reverse_reverse, ih hlen hspace.2 hgaps htokens]

/-- The tokens of a text are the one way it splits. -/
theorem tokens_eq_iff (s : Text) (ts : List Text) : tokens s = ts ↔ SplitsInto s ts := by
  constructor
  · rintro rfl
    exact splitsInto_tokensFrom s [] (by simp)
  · rintro ⟨lead, gaps, rfl, hlen, hspace, hgaps, htokens⟩
    rw [List.forall_mem_cons] at hspace
    rw [tokens, tokensFrom_skip hspace.1, tokensFrom_zip hlen hspace.2 hgaps htokens]

/-- A trimmed line that is not skipped has a token: without one it would be whitespace alone. -/
theorem tokens_trim_ne_nil {raw : Text} (h : isSkipped (trim raw) = false) : tokens (trim raw) ≠ [] := by
  intro hnil
  obtain ⟨lead, gaps, hlead, -, hspace, -, -⟩ := (tokens_eq_iff (trim raw) []).1 hnil
  have htrim : trim raw = lead := by simpa using hlead
  cases lead with
  | nil => simp [htrim, isSkipped] at h
  | cons x lead =>
    have hspaceX : isSpace x = true := hspace _ List.mem_cons_self x List.mem_cons_self
    have hotherX : isSpace x = false := isSpace_of_head?_trim (by rw [htrim, List.head?_cons])
    rw [hspaceX] at hotherX
    cases hotherX

/-- Settles O54: the split exists and is unique, and a line that is not skipped is not whitespace alone. -/
theorem tokensAreMaximalRuns : Obligations.TokensAreMaximalRuns := by
  refine ⟨fun s ts => ?_, fun _ => tokens_trim_ne_nil⟩
  simpa only [SplitsInto, isSpace_iff, isSpace_eq_false_iff] using tokens_eq_iff s ts

end Sys2Proof.Assembler
end

section
/-! Proofs of the encoding family, part 4: what the Encoder makes of its lines. The checks of one line, the result
over all lines in order, and the log with its hex form. -/

namespace Sys2Proof.Assembler

/-! ### One line (R95-R98) -/

/-- The operands of the instruction of an opcode, by the table's order. -/
theorem operandsOf_instrOf (op : Opcode) (v : Nat → Nat) :
    operandsOf (instrOf op v) = (List.range (widthsOf op).length).map v := by
  cases op <;> rfl

/-- An instruction built from as many values as its opcode has fields has those values as its operands. -/
theorem operandsOf_instrOf_getD {op : Opcode} {vs : List Nat} (h : vs.length = (widthsOf op).length) :
    operandsOf (instrOf op fun j => vs.getD j 0) = vs := by
  rw [operandsOf_instrOf, ← h]
  exact List.ext_getElem (by simp) fun j _ hj => by simp [hj]

/-- A numeric token with an opcode's value names that opcode (R95). -/
theorem opcodeOfToken_of_tagOf {t : Text} {op : Opcode} (h : tokenValue t = some (tagOf op : Int)) :
    opcodeOfToken t = some op := by
  rw [opcodeOfToken, h]
  exact opcodeOfTag_tagOf op

/-- A token without one of the four values names no opcode (R95). -/
theorem opcodeOfToken_eq_none {t : Text}
    (h : ∀ v : Int, tokenValue t = some v → v ≠ 90 ∧ v ≠ 1 ∧ v ≠ 62 ∧ v ≠ 137) : opcodeOfToken t = none := by
  rw [opcodeOfToken]
  split
  · next n hn =>
    obtain ⟨h90, h1, h62, h137⟩ : (n : Int) ≠ 90 ∧ (n : Int) ≠ 1 ∧ (n : Int) ≠ 62 ∧ (n : Int) ≠ 137 := h n hn
    apply opcodeOfTag_eq_none <;> omega
  · rfl
  · rfl

/-- A numeric token whose value fits is accepted with its value (R97). -/
theorem operandOfToken_of_fits {w v : Nat} {x : Text} (hx : tokenValue x = some (v : Int)) (hv : v < 256 ^ w) :
    operandOfToken w x = some v := by
  rw [operandOfToken, hx]
  exact if_pos hv

/-- A token that is not numeric, or whose value does not fit, is refused (R97). -/
theorem operandOfToken_eq_none {w : Nat} {x : Text}
    (h : ∀ v : Int, tokenValue x = some v → ¬(0 ≤ v ∧ v ≤ 256 ^ w - 1)) : operandOfToken w x = none := by
  rw [operandOfToken]
  split
  · next n hn =>
    apply if_neg
    intro hfits
    have hcast : (n : Int) < 256 ^ w := by exact_mod_cast hfits
    exact h n hn ⟨Int.natCast_nonneg n, Int.le_sub_one_of_lt hcast⟩
  · rfl
  · rfl

/-- One refused operand token refuses the operands, wherever it stands. -/
theorem operandsOfTokens_eq_none {ws : List Nat} {ts : List Text} {j w : Nat} {x : Text} (hw : ws[j]? = some w)
    (hx : ts[j]? = some x) (hbad : operandOfToken w x = none) : operandsOfTokens ws ts = none := by
  induction ws generalizing ts j with
  | nil => simp at hw
  | cons w' ws ih =>
    cases ts with
    | nil => rfl
    | cons t ts =>
      rw [operandsOfTokens]
      cases hfirst : operandOfToken w' t with
      | none => rfl
      | some v =>
        cases j with
        | zero =>
          obtain rfl : w' = w := by simpa using hw
          obtain rfl : t = x := by simpa using hx
          rw [hbad] at hfirst
          cases hfirst
        | succ j => simp [ih (by simpa using hw) (by simpa using hx)]

/-- Operand tokens whose values all fit are accepted with their values. -/
theorem operandsOfTokens_eq_some {ws vs : List Nat} {ts : List Text}
    (hts : ts.map tokenValue = vs.map (fun (v : Nat) => some (v : Int))) (hlen : vs.length = ws.length)
    (hfits : ∀ (j w v : Nat), ws[j]? = some w → vs[j]? = some v → v < 256 ^ w) :
    operandsOfTokens ws ts = some vs := by
  induction ws generalizing vs ts with
  | nil =>
    obtain rfl : vs = [] := List.length_eq_zero_iff.1 hlen
    obtain rfl : ts = [] := by simpa using hts
    rfl
  | cons w ws ih =>
    obtain ⟨v, vs, rfl⟩ := List.exists_cons_of_length_eq_add_one hlen
    cases ts with
    | nil => simp at hts
    | cons t ts =>
      rw [List.map_cons, List.map_cons, List.cons.injEq] at hts
      have hv : operandOfToken w t = some v := operandOfToken_of_fits hts.1 (hfits 0 w v rfl rfl)
      have hrest := ih hts.2 (Nat.succ.inj hlen) fun j => hfits (j + 1)
      simp [operandsOfTokens, hv, hrest]

section
variable {s t : Text} {ts : List Text} (htokens : tokens s = t :: ts)
include htokens

theorem assembleLine_of_unknown (h : opcodeOfToken t = none) : assembleLine s = .error .unknownOpcode := by
  simp [assembleLine, htokens, h]

theorem assembleLine_of_arity {op : Opcode} (hop : opcodeOfToken t = some op)
    (h : ts.length ≠ (widthsOf op).length) : assembleLine s = .error .malformedOperand := by
  simp [assembleLine, htokens, hop, h]

theorem assembleLine_of_operands_none {op : Opcode} (hop : opcodeOfToken t = some op)
    (hlen : ts.length = (widthsOf op).length) (h : operandsOfTokens (widthsOf op) ts = none) :
    assembleLine s = .error .malformedOperand := by
  simp [assembleLine, htokens, hop, hlen, h]

theorem assembleLine_of_operands {op : Opcode} {vs : List Nat} (hop : opcodeOfToken t = some op)
    (hlen : ts.length = (widthsOf op).length) (h : operandsOfTokens (widthsOf op) ts = some vs) :
    assembleLine s = .ok (instrOf op fun j => vs.getD j 0) := by
  simp [assembleLine, htokens, hop, hlen, h]

end

/-- Settles O39: the checks in their order, and the encoding of the instruction of the accepted operands. -/
theorem lineChecksThenBytes : Obligations.LineChecksThenBytes := by
  intro s t ts htokens
  refine ⟨fun h => assembleLine_of_unknown htokens (opcodeOfToken_eq_none h), fun op hvalue => ?_⟩
  have hop : opcodeOfToken t = some op := opcodeOfToken_of_tagOf hvalue
  refine ⟨fun harity => ?_, ?_, ?_⟩
  · apply assembleLine_of_arity htokens hop
    cases op <;> exact harity
  · rintro hlen ⟨j, w, x, hw, hx, hbad⟩
    exact assembleLine_of_operands_none htokens hop hlen
      (operandsOfTokens_eq_none hw hx (operandOfToken_eq_none hbad))
  · intro vs hts hlen hfits
    have htsLen : ts.length = (widthsOf op).length := by simpa [hlen] using congrArg List.length hts
    have hoperands : operandsOfTokens (widthsOf op) ts = some vs :=
      operandsOfTokens_eq_some hts hlen fun j w v hw hv =>
        Nat.lt_of_le_pred (by positivity) (hfits j w v hw hv)
    have hvs := operandsOf_instrOf_getD hlen
    refine ⟨_, assembleLine_of_operands htokens hop htsLen hoperands, opcodeOf_instrOf op _, hvs, ?_, ?_⟩
    · rw [encode_eq, opcodeOf_instrOf, hvs, encodeFields_eq_flatten]
    · rw [encode_length, opcodeOf_instrOf]

/-! ### All lines in order (R99) -/

/-- A physical line that is skipped or assembles. -/
def GoodLine (raw : Text) : Prop := isSkipped (trim raw) = true ∨ ∃ i : Instr, assembleLine (trim raw) = .ok i

/-- A physical line that fails with kind `k`. -/
def BadLine (raw : Text) (k : AsmErrKind) : Prop := isSkipped (trim raw) = false ∧ assembleLine (trim raw) = .error k

theorem goodLine_or_badLine (raw : Text) : GoodLine raw ∨ ∃ k, BadLine raw k := by
  cases hskip : isSkipped (trim raw) with
  | true => exact .inl (.inl hskip)
  | false =>
    cases hasm : assembleLine (trim raw) with
    | ok i => exact .inl (.inr ⟨i, hasm⟩)
    | error k => exact .inr ⟨k, hskip, hasm⟩

/-- Either all lines are good, or one fails and all before it are good. -/
theorem allGood_or_firstBad (raws : List Text) : (∀ raw ∈ raws, GoodLine raw) ∨
    ∃ before raw after k, raws = before ++ raw :: after ∧ (∀ r ∈ before, GoodLine r) ∧ BadLine raw k := by
  induction raws with
  | nil => exact .inl (by simp)
  | cons r raws ih =>
    rcases goodLine_or_badLine r with hr | ⟨k, hr⟩
    · rcases ih with hall | ⟨before, raw, after, k, rfl, hbefore, hbad⟩
      · exact .inl (List.forall_mem_cons.2 ⟨hr, hall⟩)
      · exact .inr ⟨r :: before, raw, after, k, rfl, List.forall_mem_cons.2 ⟨hr, hbefore⟩, hbad⟩
    · exact .inr ⟨[], r, raws, k, rfl, by simp, hr⟩

/-- An instruction line stands for what its trimmed text assembles to. -/
theorem lineTuple_eq_some_iff (raw : Text) (i : Instr) :
    lineTuple raw = some i ↔ isSkipped (trim raw) = false ∧ assembleLine (trim raw) = .ok i := by
  cases hskip : isSkipped (trim raw) <;> cases hasm : assembleLine (trim raw) <;> simp [lineTuple, hskip, hasm]

theorem lineTuple_of_skipped {raw : Text} (h : isSkipped (trim raw) = true) : lineTuple raw = none := by
  rw [lineTuple, if_pos h]

/-- The log record of a physical line, if it is an instruction line that assembles (R100). -/
def lineRecord (raw : Text) : Option LogRecord :=
  (lineTuple raw).map fun i => { instruction := trim raw, binary := hex (encode i) }

/-- The working state after good lines: their bytes and records added, their number counted. -/
def EncoderState.afterLines (st : EncoderState) (raws : List Text) : EncoderState :=
  { out := st.out ++ (raws.filterMap lineTuple).flatMap encode
    log := st.log ++ raws.filterMap lineRecord
    line := st.line + raws.length }

@[simp] theorem afterLines_nil (st : EncoderState) : st.afterLines [] = st := by simp [EncoderState.afterLines]

theorem afterLines_afterLines (st : EncoderState) (raws raws' : List Text) :
    (st.afterLines raws).afterLines raws' = st.afterLines (raws ++ raws') := by
  simp [EncoderState.afterLines, Nat.add_assoc]

/-- A good line adds its bytes and its record, and is counted. -/
theorem encodeLine_of_good (st : EncoderState) {raw : Text} (h : GoodLine raw) :
    encodeLine st raw = .ok (st.afterLines [raw]) := by
  cases hskip : isSkipped (trim raw) with
  | true => simp [encodeLine_of_skipped st hskip, EncoderState.afterLines, lineRecord, lineTuple_of_skipped hskip]
  | false =>
    obtain ⟨i, hi⟩ := h.resolve_left (by simp [hskip])
    have htuple : lineTuple raw = some i := (lineTuple_eq_some_iff raw i).2 ⟨hskip, hi⟩
    simp [encodeLine, hskip, hi, EncoderState.afterLines, lineRecord, htuple]

/-- A bad line is the error. -/
theorem encodeLine_of_bad (st : EncoderState) {raw : Text} {k : AsmErrKind} (h : BadLine raw k) :
    encodeLine st raw = .error { kind := k, line := st.line, text := trim raw } := by
  simp [encodeLine, h.1, h.2]

/-- Good lines in front are encoded, and encoding goes on after them. -/
theorem encodeLines_append_of_good (st : EncoderState) {before : List Text} (h : ∀ r ∈ before, GoodLine r)
    (rest : List Text) : encodeLines st (before ++ rest) = encodeLines (st.afterLines before) rest := by
  induction before generalizing st with
  | nil => simp
  | cons r before ih =>
    rw [List.forall_mem_cons] at h
    rw [List.cons_append, encodeLines, encodeLine_of_good st h.1]
    simp only
    rw [ih _ h.2, afterLines_afterLines, List.singleton_append]

/-- A text whose lines are all good encodes to their bytes and records in order. -/
theorem encodeProgram_of_good {text : Text} (h : ∀ raw ∈ physicalLines text, GoodLine raw) :
    encodeProgram text =
      .ok ((lineTuples text).flatMap encode, (physicalLines text).filterMap lineRecord) := by
  have hlines := encodeLines_append_of_good .start h []
  rw [List.append_nil] at hlines
  rw [encodeProgram, hlines]
  rfl

/-- A text whose first bad line is `raw` fails with that line's error alone. -/
theorem encodeProgram_of_bad {text raw : Text} {before after : List Text} {k : AsmErrKind}
    (hlines : physicalLines text = before ++ raw :: after) (hbefore : ∀ r ∈ before, GoodLine r)
    (hbad : BadLine raw k) :
    encodeProgram text = .error { kind := k, line := before.length + 1, text := trim raw } := by
  rw [encodeProgram, hlines, encodeLines_append_of_good .start hbefore, encodeLines, encodeLine_of_bad _ hbad]
  simp [EncoderState.afterLines, EncoderState.start, Nat.add_comm]

/-- What a text that encodes answers, and when it does. -/
theorem encodeProgram_eq_ok_iff (text : Text) (out : List Byte) (log : List LogRecord) :
    encodeProgram text = .ok (out, log) ↔ (∀ raw ∈ physicalLines text, GoodLine raw) ∧
      out = (lineTuples text).flatMap encode ∧ log = (physicalLines text).filterMap lineRecord := by
  constructor
  · intro h
    rcases allGood_or_firstBad (physicalLines text) with hgood | ⟨before, raw, after, k, hlines, hbefore, hbad⟩
    · rw [encodeProgram_of_good hgood, Except.ok.injEq, Prod.mk.injEq] at h
      exact ⟨hgood, h.1.symm, h.2.symm⟩
    · rw [encodeProgram_of_bad hlines hbefore hbad] at h
      cases h
  · rintro ⟨hgood, rfl, rfl⟩
    exact encodeProgram_of_good hgood

/-- What a text that fails answers, and when it does. -/
theorem encodeProgram_eq_error_iff (text : Text) (e : AsmError) :
    encodeProgram text = .error e ↔ ∃ (before : List Text) (raw : Text) (after : List Text),
      physicalLines text = before ++ raw :: after ∧ (∀ r ∈ before, GoodLine r) ∧ BadLine raw e.kind ∧
        e.line = before.length + 1 ∧ e.text = trim raw := by
  constructor
  · intro h
    rcases allGood_or_firstBad (physicalLines text) with hgood | ⟨before, raw, after, k, hlines, hbefore, hbad⟩
    · rw [encodeProgram_of_good hgood] at h
      cases h
    · rw [encodeProgram_of_bad hlines hbefore hbad, Except.error.injEq] at h
      subst h
      exact ⟨before, raw, after, hlines, hbefore, hbad, rfl, rfl⟩
  · rintro ⟨before, raw, after, hlines, hbefore, hbad, hline, htext⟩
    rw [encodeProgram_of_bad hlines hbefore hbad, ← hline, ← htext]

/-- Settles O40: both results of the Encoder, and what a line tuple is. -/
theorem encoderIsItsLinesInOrder : Obligations.EncoderIsItsLinesInOrder :=
  ⟨encodeProgram_eq_ok_iff,
    fun text e => by simpa only [GoodLine, BadLine, and_assoc] using encodeProgram_eq_error_iff text e,
    lineTuple_eq_some_iff, fun _ => rfl⟩

/-! ### The log (R100) -/

/-- Settles O56: each record of the log as its object. -/
theorem logJsonMembersPerLine : Obligations.LogJsonMembersPerLine := by
  intro text out log h
  obtain ⟨-, -, rfl⟩ := (encodeProgram_eq_ok_iff text out log).1 h
  rw [Report.logJson, List.map_filterMap]
  congr 1
  funext raw
  rw [lineRecord, Option.map_map]
  rfl

theorem hexDigit_toNat_of_lt_ten {n : Nat} (h : n < 10) : (hexDigit n).toNat = 0x30 + n := by
  simp only [hexDigit, if_pos h, BitVec.toNat_ofNat]
  omega

theorem hexDigit_toNat_of_ten_le {n : Nat} (h : 10 ≤ n) (h' : n < 16) : (hexDigit n).toNat = 0x61 + (n - 10) := by
  simp only [hexDigit, if_neg (Nat.not_lt.2 h), BitVec.toNat_ofNat]
  omega

/-- A hex digit is `0`-`9` or `a`-`f`. -/
theorem hexDigit_range {n : Nat} (h : n < 16) :
    (0x30 ≤ (hexDigit n).toNat ∧ (hexDigit n).toNat ≤ 0x39) ∨
      (0x61 ≤ (hexDigit n).toNat ∧ (hexDigit n).toNat ≤ 0x66) := by
  by_cases hten : n < 10
  · rw [hexDigit_toNat_of_lt_ten hten]; omega
  · rw [hexDigit_toNat_of_ten_le (by omega) h]; omega

/-- Different digits are spelled differently. -/
theorem hexDigit_inj {m n : Nat} (hm : m < 16) (hn : n < 16) (h : hexDigit m = hexDigit n) : m = n := by
  have hnat : (hexDigit m).toNat = (hexDigit n).toNat := congrArg BitVec.toNat h
  by_cases hm10 : m < 10 <;> by_cases hn10 : n < 10
  · rw [hexDigit_toNat_of_lt_ten hm10, hexDigit_toNat_of_lt_ten hn10] at hnat; omega
  · rw [hexDigit_toNat_of_lt_ten hm10, hexDigit_toNat_of_ten_le (by omega) hn] at hnat; omega
  · rw [hexDigit_toNat_of_ten_le (by omega) hm, hexDigit_toNat_of_lt_ten hn10] at hnat; omega
  · rw [hexDigit_toNat_of_ten_le (by omega) hm, hexDigit_toNat_of_ten_le (by omega) hn] at hnat; omega

theorem hex_cons (b : Byte) (bs : List Byte) :
    hex (b :: bs) = hexDigit (b.toNat / 16) :: hexDigit (b.toNat % 16) :: hex bs := rfl

theorem high_half_lt (b : Byte) : b.toNat / 16 < 16 := by
  have := b.isLt
  omega

theorem low_half_lt (b : Byte) : b.toNat % 16 < 16 := Nat.mod_lt _ (by decide)

theorem hex_length (bs : List Byte) : (hex bs).length = 2 * bs.length := by
  induction bs with
  | nil => rfl
  | cons b bs ih => rw [hex_cons, List.length_cons, List.length_cons, List.length_cons, ih]; omega

theorem hex_range {bs : List Byte} {c : Byte} (hc : c ∈ hex bs) :
    (0x30 ≤ c.toNat ∧ c.toNat ≤ 0x39) ∨ (0x61 ≤ c.toNat ∧ c.toNat ≤ 0x66) := by
  induction bs with
  | nil => cases hc
  | cons b bs ih =>
    rw [hex_cons, List.mem_cons, List.mem_cons] at hc
    rcases hc with rfl | rfl | hc
    · exact hexDigit_range (high_half_lt b)
    · exact hexDigit_range (low_half_lt b)
    · exact ih hc

/-- The bytes can be told from their hex: each byte from its two halves. -/
theorem hex_inj {bs bs' : List Byte} (h : hex bs = hex bs') : bs = bs' := by
  induction bs generalizing bs' with
  | nil =>
    cases bs' with
    | nil => rfl
    | cons b' bs' => cases h
  | cons b bs ih =>
    cases bs' with
    | nil => cases h
    | cons b' bs' =>
      rw [hex_cons, hex_cons, List.cons.injEq, List.cons.injEq] at h
      obtain ⟨hhigh, hlow, hrest⟩ := h
      have hhigh := hexDigit_inj (high_half_lt b) (high_half_lt b') hhigh
      have hlow := hexDigit_inj (low_half_lt b) (low_half_lt b') hlow
      have hb : b = b' := BitVec.eq_of_toNat_eq (by omega)
      rw [hb, ih hrest]

/-- Settles O45: the digits one by one, then length, range and injectivity by induction over the bytes. -/
theorem hexSpellsBytes : Obligations.HexSpellsBytes :=
  ⟨rfl, hex_cons, fun _ => ⟨hexDigit_toNat_of_lt_ten, hexDigit_toNat_of_ten_le⟩,
    fun bs => ⟨hex_length bs, fun _ => hex_range⟩, fun _ _ => hex_inj⟩

end Sys2Proof.Assembler
end

section
/-! Proofs of the sequencing family (40_sequencing.md): the normal end, the advance of `pc`, and the end by an
error. -/

namespace Sys2Proof

open Machine

/-- What a successful decode at an offset says of the program there: the instruction's tag byte, and its length. -/
theorem decodeAt_ok {P : List Byte} {pc n : Nat} {i : Instr} (h : decodeAt P pc = .ok (i, n)) :
    P[pc]? = some (tagByte (opcodeOf i)) ∧ n = lengthOf (opcodeOf i) := by
  obtain ⟨op, rest, hbytes, rfl, rfl, _⟩ := decodeBytes_ok h
  rw [opcodeOf_instrOf, ← List.head?_drop, hbytes]
  exact ⟨rfl, rfl⟩

/-- Why bytes that begin with `t` do not decode: the error reports `t` itself (R80, R176). -/
theorem decodeBytes_cons_error {t : Byte} {rest : List Byte} {e : DecodeError}
    (h : decodeBytes (t :: rest) = .error e) :
    e = .unknownOpcode t ∨ ∃ needed remaining, e = .truncated t needed remaining := by
  rcases hop : opcodeOfTag t.toNat with _ | op
  · exact .inl (by simpa [decodeBytes, hop] using h.symm)
  · by_cases hshort : rest.length < lengthOf op - 1
    · exact .inr ⟨_, _, by simpa [decodeBytes, hop, hshort] using h.symm⟩
    · simp [decodeBytes, hop, hshort] at h

/-- A decode error names the byte at the offset, or there is no byte there. -/
theorem decodeAt_error {P : List Byte} {pc : Nat} {e : DecodeError} (h : decodeAt P pc = .error e) :
    e = .noTagByte ∨
      ∃ t, P[pc]? = some t ∧ (e = .unknownOpcode t ∨ ∃ needed remaining, e = .truncated t needed remaining) := by
  rw [decodeAt] at h
  rw [← List.head?_drop]
  cases hbytes : P.drop pc with
  | nil =>
    rw [hbytes] at h
    exact .inl (Except.error.inj h).symm
  | cons t rest =>
    rw [hbytes] at h
    exact .inr ⟨t, rfl, decodeBytes_cons_error h⟩

theorem getElem?_of_decodeAt_unknownOpcode {P : List Byte} {pc : Nat} {tag : Byte}
    (h : decodeAt P pc = .error (.unknownOpcode tag)) : P[pc]? = some tag := by
  simpa using decodeAt_error h

theorem getElem?_of_decodeAt_truncated {P : List Byte} {pc needed remaining : Nat} {tag : Byte}
    (h : decodeAt P pc = .error (.truncated tag needed remaining)) : P[pc]? = some tag := by
  simpa using decodeAt_error h

/-- The two ways an executed instruction ends, told apart by the status: `pc` past the instruction with the status
kept (R114), or the error taken (R116). -/
theorem exec_next {i : Instr} {s t : State} (h : exec i s = .next t) :
    (t.status = s.status ∧ t.pc = s.pc + lengthOf (opcodeOf i)) ∨
      ∃ info, t = raise s (tagByte (opcodeOf i)) info := by
  rcases exec_cases i s with ⟨v, _, _, hexec⟩ | ⟨info, _, hexec⟩
  · obtain rfl := Host.Outcome.next.inj (hexec.symm.trans h)
    exact .inl ⟨rfl, rfl⟩
  · exact .inr ⟨info, Host.Outcome.next.inj (h.symm.trans hexec)⟩

theorem step_of_pc_eq_length {s : State} (hs : s.status = .running) (hpc : s.pc = s.prog.length) :
    step s = .next (finish s) := by
  simp [step, hs, fetch, hpc]

theorem step_of_decodeAt_ok {s : State} {i : Instr} {n : Nat} (hs : s.status = .running)
    (hd : decodeAt s.prog s.pc = .ok (i, n)) : step s = exec i s := by
  obtain ⟨htag, _⟩ := decodeAt_ok hd
  have hpc : s.pc ≠ s.prog.length := Nat.ne_of_lt (List.getElem?_eq_some_iff.1 htag).1
  simp [step, hs, fetch, hpc, hd]

/-- A step to a running state executed an instruction: the end and every error leave another status. -/
theorem step_to_running {s t : State} (h : step s = .next t) (ht : t.status = .running) :
    ∃ i n, decodeAt s.prog s.pc = .ok (i, n) ∧ exec i s = .next t := by
  obtain ⟨-, ⟨-, rfl⟩ | hexec | ⟨tag, -, rfl⟩ | ⟨tag, needed, remaining, -, rfl⟩⟩ := step_cases h
  · cases ht
  · exact hexec
  · cases ht
  · cases ht

/-- A step to status done is the normal end (R113): an instruction keeps the status running or takes an error. -/
theorem step_to_done {s t : State} (h : step s = .next t) (ht : t.status = .done) :
    s.status = .running ∧ s.pc = s.prog.length := by
  obtain ⟨hs, ⟨hpc, -⟩ | ⟨i, n, -, hexec⟩ | ⟨tag, -, rfl⟩ | ⟨tag, needed, remaining, -, rfl⟩⟩ := step_cases h
  · exact ⟨hs, hpc⟩
  · rcases exec_next hexec with ⟨hkept, -⟩ | ⟨info, rfl⟩
    · rw [ht, hs] at hkept
      cases hkept
    · cases ht
  · cases ht
  · cases ht

/-- No step from a faulted run answers a next state (R117). -/
theorem step_ne_next_of_faulted {t : State} {e : ErrRecord} (ht : t.status = .faulted e) (u : State) :
    step t ≠ .next u := by
  intro hu
  obtain ⟨hrunning, -⟩ := step_cases hu
  rw [ht] at hrunning
  cases hrunning

/-- Settles O23: the normal end, its only origin, and the empty program, whose end is at offset 0. -/
theorem normalEndOnlyAtProgramEnd : Obligations.NormalEndOnlyAtProgramEnd :=
  ⟨fun _ => step_of_pc_eq_length, fun _ _ => step_to_done, fun cfg =>
    ⟨finish (State.start cfg []), step_of_pc_eq_length rfl rfl, rfl, read_start_mem cfg []⟩⟩

/-- Settles O24: the step executed the decoded instruction, which did not take an error. -/
theorem stepAdvancesByLength : Obligations.StepAdvancesByLength := by
  intro s t h ht
  obtain ⟨i, n, hd, hexec⟩ := step_to_running h ht
  obtain ⟨-, rfl⟩ := decodeAt_ok hd
  refine ⟨i, _, hd, hexec, ?_, lengthOf_cases (opcodeOf i)⟩
  rcases exec_next hexec with ⟨-, hpc⟩ | ⟨info, rfl⟩
  · exact hpc
  · cases ht

/-- Settles O25: the state is `raise` of the one before on each way to an error: while executing, at an unknown tag,
at a truncated instruction. -/
theorem errorChangesStatusOnly : Obligations.ErrorChangesStatusOnly := by
  intro s t e h ht
  have hstop := step_ne_next_of_faulted ht
  obtain ⟨hs, ⟨-, rfl⟩ | ⟨i, n, hd, hexec⟩ | ⟨tag, hd, rfl⟩ | ⟨tag, needed, remaining, hd, rfl⟩⟩ := step_cases h
  · cases ht
  · rcases exec_next hexec with ⟨hkept, -⟩ | ⟨info, rfl⟩
    · rw [ht, hs] at hkept
      cases hkept
    · obtain ⟨htag, -⟩ := decodeAt_ok hd
      cases ht
      exact ⟨hs, rfl, rfl, htag, .inr (.inr ⟨i, n, hd, hexec⟩), hstop⟩
  · cases ht
    exact ⟨hs, rfl, rfl, getElem?_of_decodeAt_unknownOpcode hd, .inl ⟨tag, hd, rfl⟩, hstop⟩
  · cases ht
    exact ⟨hs, rfl, rfl, getElem?_of_decodeAt_truncated hd, .inr (.inl ⟨tag, needed, remaining, hd, rfl⟩), hstop⟩

/-- Settles O21: bytes that decode stand before the program's end, so the step fetches them. -/
theorem stepRunsDecodedInstruction : Obligations.StepRunsDecodedInstruction :=
  fun _ _ _ => step_of_decodeAt_ok

end Sys2Proof
end

section
/-! Proofs of the memory transfer family (41_memory_transfer.md): the bytes of each instruction, its store when every
check passes, and the check that stops it when one fails. -/

namespace Sys2Proof

open Machine

/-! ### The last field of an encoding -/

theorem encodeFields_singleton (w v : Nat) : encodeFields [w] [v] = beBytes w v := List.append_nil _

theorem encode_loadConstant (dst value : Nat) :
    encode (.loadConstant dst value) = 0x5A :: (beBytes 4 dst ++ beBytes 4 value) := by
  rw [← encodeFields_singleton 4 value]
  rfl

theorem encode_readMemory (dst base offset : Nat) :
    encode (.readMemory dst base offset) = 0x01 :: (beBytes 4 dst ++ (beBytes 4 base ++ beBytes 2 offset)) := by
  rw [← encodeFields_singleton 2 offset]
  rfl

theorem encode_writeMemory (dst src : Nat) :
    encode (.writeMemory dst src) = 0x3E :: (beBytes 4 dst ++ beBytes 4 src) := by
  rw [← encodeFields_singleton 4 src]
  rfl

/-! ### Accesses at a direct address (R77) -/

section
variable {s : State} {n : Nat}

theorem inBounds_directAddr : InBounds s (directAddr n) ↔ n < s.cfg.memSize := inBounds_natCast

theorem not_inBounds_directAddr : ¬InBounds s (directAddr n) ↔ s.cfg.memSize ≤ n :=
  inBounds_directAddr.not.trans Nat.not_lt

theorem memRead_directAddr_of_lt (h : n < s.cfg.memSize) : memRead s (directAddr n) = .ok (s.mem.read n) :=
  memRead_inBounds (inBounds_directAddr.2 h)

theorem memRead_directAddr_of_le (h : s.cfg.memSize ≤ n) :
    memRead s (directAddr n) = .error (.memoryOutOfBounds n) :=
  memRead_outOfBounds (not_inBounds_directAddr.2 h)

theorem checkBounds_directAddr_of_lt (h : n < s.cfg.memSize) : checkBounds s (directAddr n) = .ok () :=
  if_pos (inBounds_directAddr.2 h)

theorem checkBounds_directAddr_of_le (h : s.cfg.memSize ≤ n) :
    checkBounds s (directAddr n) = .error (.memoryOutOfBounds n) :=
  if_neg (not_inBounds_directAddr.2 h)

/-- Forming the address accesses the pointer's cell alone; the exact sum itself may lie outside memory (R134, R135). -/
theorem pointerOffsetAddr_of_lt (h : n < s.cfg.memSize) (offset : Nat) :
    pointerOffsetAddr s n offset = .ok (s.mem.read n + offset) := by
  rw [pointerOffsetAddr, pointerAddr, memRead_directAddr_of_lt h]

theorem pointerOffsetAddr_of_le (h : s.cfg.memSize ≤ n) (offset : Nat) :
    pointerOffsetAddr s n offset = .error (.memoryOutOfBounds n) := by
  rw [pointerOffsetAddr, pointerAddr, memRead_directAddr_of_le h]

/-- An instruction that ends by storing to an existing cell completes: that cell holds the value, every other cell
reads as before, and `pc` is past the instruction (R54, R114). -/
theorem retire_memWrite_of_lt (op : Opcode) (v : Int) (h : n < s.cfg.memSize) :
    ∃ m : Memory, retire op s (memWrite s (directAddr n) v) = .next { s with mem := m, pc := s.pc + lengthOf op } ∧
      m.read n = v ∧ ∀ a : Nat, a ≠ n → m.read a = s.mem.read a := by
  refine ⟨s.mem.write n v, ?_, read_write_same s.mem n v, fun a ha => read_write_other s.mem n a v ha.symm⟩
  rw [memWrite_inBounds (inBounds_directAddr.2 h), retire_ok]
  rfl

/-- An instruction that ends by storing outside memory takes the error of its destination (R54, R116). -/
theorem retire_memWrite_of_le (op : Opcode) (v : Int) (h : s.cfg.memSize ≤ n) :
    retire op s (memWrite s (directAddr n) v) = .next (raise s (tagByte op) (.memoryOutOfBounds n)) := by
  rw [memWrite_outOfBounds (not_inBounds_directAddr.2 h), retire_error]
  rfl

end

/-! ### The meanings, check by check -/

section
variable {s : State}

theorem exec_loadConstant (dst value : Nat) :
    exec (.loadConstant dst value) s = retire .loadConstant s (memWrite s (directAddr dst) value) := rfl

theorem exec_readMemory_of_base_le (dst : Nat) {base : Nat} (offset : Nat) (hbase : s.cfg.memSize ≤ base) :
    exec (.readMemory dst base offset) s = .next (raise s (tagByte .readMemory) (.memoryOutOfBounds base)) := by
  simp only [exec, execReadMemory, pointerOffsetAddr_of_le hbase, retire_error]

theorem exec_readMemory_of_addr_outOfBounds (dst : Nat) {base offset : Nat} (hbase : base < s.cfg.memSize)
    (haddr : ¬InBounds s (s.mem.read base + offset)) :
    exec (.readMemory dst base offset) s =
      .next (raise s (tagByte .readMemory) (.memoryOutOfBounds (s.mem.read base + offset))) := by
  simp only [exec, execReadMemory, pointerOffsetAddr_of_lt hbase, memRead_outOfBounds haddr, retire_error]

/-- Past its two reads READ_MEMORY is the store of the cell it loaded (R134, R136). -/
theorem exec_readMemory_of_addr_inBounds (dst : Nat) {base offset : Nat} (hbase : base < s.cfg.memSize)
    (haddr : InBounds s (s.mem.read base + offset)) :
    exec (.readMemory dst base offset) s =
      retire .readMemory s (memWrite s (directAddr dst) (s.mem.read (s.mem.read base + offset).toNat)) := by
  simp only [exec, execReadMemory, pointerOffsetAddr_of_lt hbase, memRead_inBounds haddr]

/-- The destination is checked first, so its error hides any error of `src` (R139). -/
theorem exec_writeMemory_of_dst_le {dst : Nat} (src : Nat) (hdst : s.cfg.memSize ≤ dst) :
    exec (.writeMemory dst src) s = .next (raise s (tagByte .writeMemory) (.memoryOutOfBounds dst)) := by
  simp only [exec, execWriteMemory, checkBounds_directAddr_of_le hdst, retire_error]

theorem exec_writeMemory_of_src_le {dst src : Nat} (hdst : dst < s.cfg.memSize) (hsrc : s.cfg.memSize ≤ src) :
    exec (.writeMemory dst src) s = .next (raise s (tagByte .writeMemory) (.memoryOutOfBounds src)) := by
  simp only [exec, execWriteMemory, checkBounds_directAddr_of_lt hdst, memRead_directAddr_of_le hsrc, retire_error]

/-- Past its two checks WRITE_MEMORY is the store of the cell it copies (R138). -/
theorem exec_writeMemory_of_lt {dst src : Nat} (hdst : dst < s.cfg.memSize) (hsrc : src < s.cfg.memSize) :
    exec (.writeMemory dst src) s = retire .writeMemory s (memWrite s (directAddr dst) (s.mem.read src)) := by
  simp only [exec, execWriteMemory, checkBounds_directAddr_of_lt hdst, memRead_directAddr_of_lt hsrc]

end

/-- Settles O13: LOAD_CONSTANT is a store of its immediate, and the store has the only check. -/
theorem loadConstantStoresImmediate : Obligations.LoadConstantStoresImmediate := by
  intro dst value s
  rw [exec_loadConstant]
  exact ⟨encode_loadConstant dst value, retire_memWrite_of_lt .loadConstant value,
    retire_memWrite_of_le .loadConstant value⟩

/-- Settles O14: one clause per check that can fail, and the store behind the two reads that pass. -/
theorem readMemoryLoadsThroughPointer : Obligations.ReadMemoryLoadsThroughPointer := by
  intro dst base offset s
  refine ⟨encode_readMemory dst base offset, fun hbase haddr hdst => ?_, exec_readMemory_of_base_le dst offset,
    exec_readMemory_of_addr_outOfBounds dst, fun hbase haddr hdst => ?_⟩
  · rw [exec_readMemory_of_addr_inBounds dst hbase haddr]
    exact retire_memWrite_of_lt .readMemory _ hdst
  · rw [exec_readMemory_of_addr_inBounds dst hbase haddr]
    exact retire_memWrite_of_le .readMemory _ hdst

/-- Settles O15: one clause per check that can fail, and the store behind the checks that pass. -/
theorem writeMemoryCopiesCell : Obligations.WriteMemoryCopiesCell := by
  intro dst src s
  refine ⟨encode_writeMemory dst src, fun hdst hsrc => ?_, exec_writeMemory_of_dst_le src, exec_writeMemory_of_src_le⟩
  rw [exec_writeMemory_of_lt hdst hsrc]
  exact retire_memWrite_of_lt .writeMemory _ hdst

end Sys2Proof
end

section
/-! Proofs of the integer square root family (42_integer_sqrt.md): the search bit by bit finds Mathlib's `Nat.sqrt`,
and SQRT stores that root once its two reads and the sign check pass. -/

namespace Sys2Proof

open Machine

/-! ### The root (R151) -/

/-- The search keeps the root in the window of the bits still open: each round halves it, at a middle that is at most
the root exactly when its square is at most `v`. -/
theorem isqrtBits_eq_sqrt {v k r : Nat} (hlow : r ≤ v.sqrt) (hhigh : v.sqrt < r + 2 ^ k) :
    isqrtBits v k r = v.sqrt := by
  induction k generalizing r with
  | zero =>
    rw [isqrtBits]
    omega
  | succ k ih =>
    rw [isqrtBits]
    split
    · next hbit => exact ih (Nat.le_sqrt.2 hbit) (by omega)
    · next hbit => exact ih hlow (Nat.sqrt_lt.2 (Nat.lt_of_not_le hbit))

/-- At the start the window holds every root: the root is at most `v`, and `v` has `v.log2 + 1` bits. -/
theorem isqrt_eq_sqrt (v : Nat) : isqrt v = v.sqrt := by
  have hhigh : v.sqrt < 0 + 2 ^ (v.log2 + 1) := by
    rw [Nat.zero_add]
    exact Nat.lt_of_le_of_lt v.sqrt_le_self Nat.lt_log2_self
  exact isqrtBits_eq_sqrt (Nat.zero_le _) hhigh

theorem isqrt_eq_iff (v r : Nat) : isqrt v = r ↔ r * r ≤ v ∧ v < (r + 1) * (r + 1) := by
  rw [isqrt_eq_sqrt, eq_comm, Nat.eq_sqrt]

/-- A bound on the root is a bound on the value. -/
theorem isqrt_lt_iff {v n : Nat} : isqrt v < n ↔ v < n * n := by
  rw [isqrt_eq_sqrt, Nat.sqrt_lt]

/-- Settles O17: the root is `Nat.sqrt`, and a 32-bit value lies below the square of `65536`. -/
theorem integerRootIsExact : Obligations.IntegerRootIsExact := by
  refine ⟨isqrt_eq_iff, fun v hv => ?_⟩
  have hlt : isqrt v < 65536 := isqrt_lt_iff.2 (by omega)
  omega

/-- The bounds of R151 on the integer that a cell holds. -/
theorem isqrt_toNat_bounds {v : Int} (hv : 0 ≤ v) :
    (isqrt v.toNat : Int) * isqrt v.toNat ≤ v ∧ v < ((isqrt v.toNat : Int) + 1) * (isqrt v.toNat + 1) := by
  lift v to Nat using hv
  exact_mod_cast (isqrt_eq_iff v (isqrt v)).1 rfl

/-! ### The instruction -/

theorem encode_sqrt (dstBase dstOffset srcPtr : Nat) :
    encode (.sqrt dstBase dstOffset srcPtr) =
      0x89 :: (beBytes 4 dstBase ++ (beBytes 2 dstOffset ++ beBytes 4 srcPtr)) := by
  rw [← encodeFields_singleton 4 srcPtr]
  rfl

/-- The exact sum of two operands is never wrapped, so it names a cell as one direct operand does (R152). -/
theorem offsetAddr_eq_directAddr (base offset : Nat) : offsetAddr base offset = directAddr (base + offset) :=
  (Nat.cast_add base offset).symm

section
variable {s : State} (dstBase dstOffset : Nat) {srcPtr : Nat}

theorem exec_sqrt_of_srcPtr_le (hptr : s.cfg.memSize ≤ srcPtr) :
    exec (.sqrt dstBase dstOffset srcPtr) s = .next (raise s (tagByte .sqrt) (.memoryOutOfBounds srcPtr)) := by
  simp only [exec, execSqrt, pointerAddr, memRead_directAddr_of_le hptr, retire_error]

theorem exec_sqrt_of_addr_outOfBounds (hptr : srcPtr < s.cfg.memSize) (haddr : ¬InBounds s (s.mem.read srcPtr)) :
    exec (.sqrt dstBase dstOffset srcPtr) s =
      .next (raise s (tagByte .sqrt) (.memoryOutOfBounds (s.mem.read srcPtr))) := by
  simp only [exec, execSqrt, pointerAddr, memRead_directAddr_of_lt hptr, memRead_outOfBounds haddr, retire_error]

/-- The sign is checked before the destination, so its error hides any error of the store (R154). -/
theorem exec_sqrt_of_neg (hptr : srcPtr < s.cfg.memSize) (haddr : InBounds s (s.mem.read srcPtr))
    (hneg : s.mem.read (s.mem.read srcPtr).toNat < 0) :
    exec (.sqrt dstBase dstOffset srcPtr) s =
      .next (raise s (tagByte .sqrt)
        (.negativeSqrt (s.mem.read srcPtr) (s.mem.read (s.mem.read srcPtr).toNat))) := by
  simp only [exec, execSqrt, pointerAddr, memRead_directAddr_of_lt hptr, memRead_inBounds haddr, if_pos hneg,
    retire_error]

/-- Past its two reads and the sign SQRT is the store of the root (R150, R154). -/
theorem exec_sqrt_of_nonneg (hptr : srcPtr < s.cfg.memSize) (haddr : InBounds s (s.mem.read srcPtr))
    (hsign : 0 ≤ s.mem.read (s.mem.read srcPtr).toNat) :
    exec (.sqrt dstBase dstOffset srcPtr) s =
      retire .sqrt s (memWrite s (directAddr (dstBase + dstOffset))
        (isqrt (s.mem.read (s.mem.read srcPtr).toNat).toNat)) := by
  simp only [exec, execSqrt, pointerAddr, memRead_directAddr_of_lt hptr, memRead_inBounds haddr,
    if_neg (Int.not_lt.2 hsign), offsetAddr_eq_directAddr]

end

/-- Settles O16: one clause per check that can fail, and the store of the root behind the checks that pass. -/
theorem sqrtWritesFlooredRoot : Obligations.SqrtWritesFlooredRoot := by
  intro dstBase dstOffset srcPtr s
  refine ⟨encode_sqrt dstBase dstOffset srcPtr, fun hptr haddr hsign hdst => ?_,
    exec_sqrt_of_srcPtr_le dstBase dstOffset, exec_sqrt_of_addr_outOfBounds dstBase dstOffset,
    exec_sqrt_of_neg dstBase dstOffset, fun hptr haddr hsign hdst => ?_⟩
  · obtain ⟨hfloor, hceil⟩ := isqrt_toNat_bounds hsign
    obtain ⟨m, hexec, hroot, hframe⟩ := retire_memWrite_of_lt .sqrt _ hdst
    rw [exec_sqrt_of_nonneg dstBase dstOffset hptr haddr hsign]
    exact ⟨m, _, hexec, hfloor, hceil, hroot, hframe⟩
  · rw [exec_sqrt_of_nonneg dstBase dstOffset hptr haddr hsign, ← Nat.cast_add]
    exact retire_memWrite_of_le .sqrt _ hdst

end Sys2Proof
end

section
/-! Proofs of the error family (60_exceptions.md): the step at bytes that do not decode, and the fields and codes of
error records. -/

namespace Sys2Proof

open Machine Assembler

/-! ### Bytes that do not decode (R171, R173) -/

theorem decodeBytes_of_unknown {t : Byte} (h : opcodeOfTag t.toNat = none) (rest : List Byte) :
    decodeBytes (t :: rest) = .error (.unknownOpcode t) := by
  simp only [decodeBytes, h]

theorem decodeBytes_of_truncated {t : Byte} {op : Opcode} {rest : List Byte} (htag : t.toNat = tagOf op)
    (hshort : rest.length < lengthOf op - 1) :
    decodeBytes (t :: rest) = .error (.truncated t (lengthOf op - 1) rest.length) := by
  simp only [decodeBytes, htag, opcodeOfTag_tagOf, if_pos hshort]

theorem pc_ne_length_of_drop_eq_cons {s : State} {t : Byte} {rest : List Byte} (h : s.prog.drop s.pc = t :: rest) :
    s.pc ≠ s.prog.length := by
  intro hend
  simp [hend] at h

section
variable {s : State} {t : Byte} {rest : List Byte} (hs : s.status = .running) (hbytes : s.prog.drop s.pc = t :: rest)
include hs hbytes

/-- A running machine at an unknown tag takes UnknownOpcode, however many bytes follow (R171). -/
theorem step_of_unknown (h : opcodeOfTag t.toNat = none) : step s = .next (raise s t .unknownOpcode) := by
  have hpc : s.pc ≠ s.prog.length := pc_ne_length_of_drop_eq_cons hbytes
  simp only [step, hs, fetch, if_neg hpc, decodeAt, hbytes, decodeBytes_of_unknown h]

/-- A running machine at a known tag with too few bytes after it takes TruncatedInstruction (R173). -/
theorem step_of_truncated {op : Opcode} (htag : t.toNat = tagOf op) (hshort : rest.length < lengthOf op - 1) :
    step s = .next (raise s t (.truncatedInstruction (lengthOf op - 1) rest.length)) := by
  have hpc : s.pc ≠ s.prog.length := pc_ne_length_of_drop_eq_cons hbytes
  simp only [step, hs, fetch, if_neg hpc, decodeAt, hbytes, decodeBytes_of_truncated htag hshort]

end

/-- Settles O22: a tag that is none of the four is unknown, and each of the four is truncated by its own length. -/
theorem undecodableBytesFault : Obligations.UndecodableBytesFault := by
  intro s t rest hs hbytes
  refine ⟨fun h90 h1 h62 h137 => step_of_unknown hs hbytes (opcodeOfTag_eq_none h90 h1 h62 h137), ?_, ?_⟩
  · rintro (h90 | h62) hshort
    · exact step_of_truncated hs hbytes (op := .loadConstant) h90 hshort
    · exact step_of_truncated hs hbytes (op := .writeMemory) h62 hshort
  · rintro (h1 | h137) hshort
    · exact step_of_truncated hs hbytes (op := .readMemory) h1 hshort
    · exact step_of_truncated hs hbytes (op := .sqrt) h137 hshort

/-! ### Codes (R170) -/

/-- No two error kinds share a code. -/
theorem kindCode_injective : Function.Injective kindCode := by
  intro k k'
  cases k <;> cases k' <;> decide

theorem asmKind_injective : Function.Injective asmKind := by
  intro k k'
  cases k <;> cases k' <;> decide

theorem errRecord_code_eq_iff (e : ErrRecord) (k : ErrKind) : e.code = kindCode k ↔ e.kind = k :=
  kindCode_injective.eq_iff

theorem asmError_code_eq_iff (e : AsmError) (k : AsmErrKind) : e.code = kindCode (asmKind k) ↔ e.kind = k :=
  (kindCode_injective.comp asmKind_injective).eq_iff

/-! ### Fields (R176) -/

section
variable (e : ErrRecord)

/-- MalformedOperand is the Encoder's alone (R172). -/
theorem kind_ne_malformedOperand : e.kind ≠ .malformedOperand := by
  obtain ⟨offset, tag, info⟩ := e
  cases info <;> simp [ErrRecord.kind, infoKind]

theorem address?_isSome_iff : e.address?.isSome ↔ e.kind = .memoryOutOfBounds ∨ e.kind = .negativeSqrt := by
  obtain ⟨offset, tag, info⟩ := e
  cases info <;> simp [ErrRecord.address?, ErrRecord.kind, infoKind]

theorem value?_isSome_iff : e.value?.isSome ↔ e.kind = .negativeSqrt := by
  obtain ⟨offset, tag, info⟩ := e
  cases info <;> simp [ErrRecord.value?, ErrRecord.kind, infoKind]

theorem needed?_isSome_iff : e.needed?.isSome ↔ e.kind = .truncatedInstruction := by
  obtain ⟨offset, tag, info⟩ := e
  cases info <;> simp [ErrRecord.needed?, ErrRecord.kind, infoKind]

theorem remaining?_isSome_iff : e.remaining?.isSome ↔ e.kind = .truncatedInstruction := by
  obtain ⟨offset, tag, info⟩ := e
  cases info <;> simp [ErrRecord.remaining?, ErrRecord.kind, infoKind]

end

/-- Settles O37: each field is present for its kinds, and a code names one kind because no two kinds share one. -/
theorem errorRecordFieldsByKind : Obligations.ErrorRecordFieldsByKind :=
  ⟨fun e => ⟨address?_isSome_iff e, value?_isSome_iff e, needed?_isSome_iff e, remaining?_isSome_iff e,
      kind_ne_malformedOperand e, errRecord_code_eq_iff e .unknownOpcode,
      errRecord_code_eq_iff e .truncatedInstruction, errRecord_code_eq_iff e .memoryOutOfBounds,
      errRecord_code_eq_iff e .negativeSqrt⟩,
    fun e => ⟨asmError_code_eq_iff e .unknownOpcode, asmError_code_eq_iff e .malformedOperand⟩,
    fun _ => rfl, fun _ => rfl⟩

end Sys2Proof
end

section
/-! Proofs of the reset and hazards family, part 1 (R211-R213): decimal spellings, range strings and the report of an
ended run. -/

namespace Sys2Proof

open Machine Assembler Report

/-! ### Decimal spellings (R213) -/

theorem digitSum_append_singleton (ds : Text) (d : Byte) :
    digitSum (ds ++ [d]) = 10 * digitSum ds + (d.toNat - 0x30) := by
  have hfold (xs : Text) : digitSum xs = xs.foldl (fun n d => 10 * n + (d.toNat - 0x30)) 0 := by
    simp [foldl_digits_eq]
  rw [hfold, hfold, List.foldl_append, List.foldl_cons, List.foldl_nil]

/-- The byte of one decimal digit, as `decimalDigits` writes it. -/
def digitByte (d : Nat) : Byte := BitVec.ofNat 8 (0x30 + d)

theorem digitByte_toNat {d : Nat} (h : d < 10) : (digitByte d).toNat = 0x30 + d := by
  rw [digitByte, BitVec.toNat_ofNat]
  omega

/-- What it is to be the decimal spelling of `n`: digits alone, with that value and no leading zero. -/
structure SpellsDecimal (ds : Text) (n : Nat) : Prop where
  ne_nil : ds ≠ []
  digits : ∀ d ∈ ds, 0x30 ≤ d.toNat ∧ d.toNat ≤ 0x39
  value : digitSum ds = n
  no_leading_zero : ds.head? = some 0x30 → ds = [0x30]

theorem spellsDecimal_digitByte {n : Nat} (h : n < 10) : SpellsDecimal [digitByte n] n where
  ne_nil := List.cons_ne_nil _ _
  digits := by simp [digitByte_toNat h]; omega
  value := by simp [digitSum, digitByte_toNat h]
  no_leading_zero := by simp

/-- One more digit after a spelling of a positive number multiplies by ten and keeps the first digit. -/
theorem SpellsDecimal.append_digitByte {ds : Text} {m d : Nat} (h : SpellsDecimal ds m) (hm : 0 < m) (hd : d < 10) :
    SpellsDecimal (ds ++ [digitByte d]) (10 * m + d) where
  ne_nil := by simp
  digits := by
    intro x hx
    rcases List.mem_append.1 hx with hx | hx
    · exact h.digits x hx
    · rw [List.mem_singleton.1 hx, digitByte_toNat hd]
      omega
  value := by rw [digitSum_append_singleton, h.value, digitByte_toNat hd, Nat.add_sub_cancel_left]
  no_leading_zero := by
    intro hhead
    rw [List.head?_append_of_ne_nil _ h.ne_nil] at hhead
    have hvalue := h.value
    rw [h.no_leading_zero hhead] at hvalue
    simp [digitSum] at hvalue
    omega

theorem decimalDigits_of_lt {n : Nat} (h : n < 10) (fuel : Nat) (acc : Text) :
    decimalDigits (fuel + 1) n acc = digitByte n :: acc := if_pos h

theorem decimalDigits_of_le {n : Nat} (h : 10 ≤ n) (fuel : Nat) (acc : Text) :
    decimalDigits (fuel + 1) n acc = decimalDigits fuel (n / 10) (digitByte (n % 10) :: acc) := if_neg (by omega)

/-- With fuel for every digit of `n`, `decimalDigits` puts the spelling of `n` in front of `acc`. -/
theorem decimalDigits_eq_append {fuel n : Nat} (h : n < 10 ^ (fuel + 1)) (acc : Text) :
    ∃ ds, SpellsDecimal ds n ∧ decimalDigits (fuel + 1) n acc = ds ++ acc := by
  induction fuel generalizing n acc with
  | zero => exact ⟨_, spellsDecimal_digitByte (by simpa using h), decimalDigits_of_lt (by simpa using h) 0 acc⟩
  | succ fuel ih =>
    by_cases hn : n < 10
    · exact ⟨_, spellsDecimal_digitByte hn, decimalDigits_of_lt hn _ acc⟩
    · have hdiv : n / 10 < 10 ^ (fuel + 1) := Nat.div_lt_of_lt_mul (by rwa [← pow_succ'])
      obtain ⟨ds, hds, hdigits⟩ := ih hdiv (digitByte (n % 10) :: acc)
      refine ⟨ds ++ [digitByte (n % 10)], ?_, ?_⟩
      · have happend := hds.append_digitByte (d := n % 10) (by omega) (by omega)
        rwa [Nat.div_add_mod] at happend
      · rw [decimalDigits_of_le (by omega), hdigits, List.append_assoc, List.singleton_append]

theorem spellsDecimal_decimal (n : Nat) : SpellsDecimal (decimal n) n := by
  have hfuel : n < 10 ^ (n.log2 + 1) := Nat.lt_log2_self.trans_le (Nat.pow_le_pow_left (by decide) _)
  obtain ⟨ds, hds, hdecimal⟩ := decimalDigits_eq_append hfuel []
  rw [decimal, hdecimal, List.append_nil]
  exact hds

theorem SpellsDecimal.tokenValue_eq {ds : Text} {n : Nat} (h : SpellsDecimal ds n) : tokenValue ds = some (n : Int) :=
  (numericTokenGrammar ds n).2 ⟨[], ds, rfl, .inl rfl, h.ne_nil, h.digits, by rw [← digitSum_natCast, h.value]; simp⟩

theorem decimal_injective : Function.Injective decimal := by
  intro m n h
  rw [← (spellsDecimal_decimal m).value, ← (spellsDecimal_decimal n).value, h]

/-- Settles O46: the spelling grows by one digit at a time, and its first digit is 0 only for a single digit. -/
theorem decimalSpellsValue : Obligations.DecimalSpellsValue := fun n =>
  have h := spellsDecimal_decimal n
  ⟨h.tokenValue_eq, h.digits, h.no_leading_zero⟩

/-! ### Range strings (R211) -/

theorem splitAtByte_eq_pair_iff (sep : Byte) (t a b : Text) :
    splitAtByte sep t = [a, b] ↔ t = a ++ sep :: b ∧ sep ∉ a ∧ sep ∉ b := by
  constructor
  · intro h
    obtain ⟨hmem, hjoin⟩ := splitAtByte_spec sep t
    rw [h] at hmem hjoin
    exact ⟨by simpa [List.intercalate_cons_cons] using hjoin.symm, hmem a (by simp), hmem b (by simp)⟩
  · rintro ⟨rfl, ha, hb⟩
    rw [splitAtByte_append_sep, splitAtByte_of_not_mem ha, splitAtByte_of_not_mem hb, List.singleton_append]

theorem parseRange_eq_some_iff_split (t : Text) (r : Range) : parseRange t = some r ↔
    ∃ a b : Text, splitAtByte colon t = [a, b] ∧ tokenValue a = some r.first ∧ tokenValue b = some r.limit := by
  constructor
  · intro h
    unfold parseRange at h
    split at h
    · next a b hsplit =>
      split at h
      · next first limit hfirst hlimit =>
        cases h
        exact ⟨a, b, hsplit, hfirst, hlimit⟩
      · cases h
    · cases h
  · rintro ⟨a, b, hsplit, hfirst, hlimit⟩
    simp only [parseRange, hsplit, hfirst, hlimit]

/-- A colon is neither a sign nor a digit. -/
theorem colon_not_mem_of_tokenValue {t : Text} {v : Int} (h : tokenValue t = some v) : colon ∉ t := by
  obtain ⟨sign, ds, rfl, hsign, -, hds, -⟩ := (numericTokenGrammar t v).1 h
  intro hmem
  rcases List.mem_append.1 hmem with hmem | hmem
  · rcases hsign with rfl | rfl | rfl <;> simp [colon] at hmem
  · exact absurd (hds _ hmem).2 (by decide)

/-- The form of a range string, with no separate word on further colons: a numeric token has none. -/
theorem parseRange_eq_some_iff (t : Text) (r : Range) : parseRange t = some r ↔
    ∃ a b : Text, t = a ++ colon :: b ∧ tokenValue a = some r.first ∧ tokenValue b = some r.limit := by
  simp only [parseRange_eq_some_iff_split, splitAtByte_eq_pair_iff]
  constructor
  · rintro ⟨a, b, ⟨ht, -, -⟩, hfirst, hlimit⟩
    exact ⟨a, b, ht, hfirst, hlimit⟩
  · rintro ⟨a, b, ht, hfirst, hlimit⟩
    exact ⟨a, b, ⟨ht, colon_not_mem_of_tokenValue hfirst, colon_not_mem_of_tokenValue hlimit⟩, hfirst, hlimit⟩

theorem decoderInvocation_of_badRange (cfg : Config) (P : List Byte) {t : Text} (h : parseRange t = none) :
    decoderInvocation cfg P t = fail .badRange := by
  rw [decoderInvocation, h]

/-- Settles O47: cutting at the colon gives the two tokens, and a string without a range fails before the run. -/
theorem rangeStringForm : Obligations.RangeStringForm :=
  ⟨parseRange_eq_some_iff, fun cfg P _ => decoderInvocation_of_badRange cfg P, rfl⟩

/-! ### The report's mapping (R212) -/

section
variable {s : State} {a : Int} {n : Nat}

theorem cellsFrom_succ_of_inBounds (ha : InBounds s a) {rest : List (Int × Int)}
    (hrest : cellsFrom s (a + 1) n = .ok rest) :
    cellsFrom s a (n + 1) = .ok ((a, s.mem.read a.toNat) :: rest) := by
  rw [cellsFrom, memRead_inBounds ha, hrest]

theorem cellsFrom_of_inBounds (h : ∀ b : Int, a ≤ b → b < a + n → InBounds s b) :
    cellsFrom s a n =
      .ok ((List.range n).map fun (k : Nat) => (a + (k : Int), s.mem.read (a + (k : Int)).toNat)) := by
  induction n generalizing a with
  | zero => rfl
  | succ n ih =>
    have ha : InBounds s a := h a (by omega) (by omega)
    have hrest := ih (a := a + 1) fun b hb hb' => h b (by omega) (by omega)
    rw [cellsFrom_succ_of_inBounds ha hrest, List.range_succ_eq_map]
    simp [add_assoc, add_comm (1 : Int)]

/-- The cells before the first bad address are read, and its own read ends the report. -/
theorem cellsFrom_of_outOfBounds {bad : Int} (hle : a ≤ bad) (hlt : bad < a + n) (hbad : ¬InBounds s bad)
    (hfirst : ∀ b : Int, a ≤ b → b < bad → InBounds s b) : cellsFrom s a n = .error (.memoryOutOfBounds bad) := by
  induction n generalizing a with
  | zero => omega
  | succ n ih =>
    by_cases heq : bad = a
    · subst heq
      rw [cellsFrom, memRead_outOfBounds hbad]
    · have ha : InBounds s a := hfirst a (by omega) (by omega)
      have hrest := ih (a := a + 1) (by omega) (by omega) fun b hb hb' => hfirst b (by omega) hb'
      rw [cellsFrom, memRead_inBounds ha, hrest]

/-- The mapping of a range inside memory, each address with its cell. -/
theorem report_of_inBounds {r : Range} (h : ∀ b : Int, r.first ≤ b → b < r.limit → InBounds s b) :
    report s r = .ok ((List.range (r.limit - r.first).toNat).map fun (k : Nat) =>
      (r.first + (k : Int), s.mem.read (r.first + (k : Int)).toNat)) :=
  cellsFrom_of_inBounds fun b hb hb' => h b hb (by omega)

end

/-- Settles O48: induction over the addresses, in bounds up to the end or up to the first that is not. -/
theorem reportIsAscendingMapping : Obligations.ReportIsAscendingMapping := fun _ _ =>
  ⟨report_of_inBounds, fun _ hle hlt hbad hfirst => cellsFrom_of_outOfBounds hle (by omega) hbad hfirst⟩

/-! ### The report's members (R213) -/

theorem reportKey_eq (a : Int) :
    reportKey a = [0x6D, 0x65, 0x6D, 0x6F, 0x72, 0x79, 0x5B] ++ decimal a.toNat ++ [0x5D] := rfl

theorem reportJson_eq (entries : List (Int × Int)) : reportJson entries = entries.map fun entry =>
    ([0x6D, 0x65, 0x6D, 0x6F, 0x72, 0x79, 0x5B] ++ decimal entry.1.toNat ++ [0x5D], JsonScalar.int entry.2) := rfl

/-- Addresses that are not negative have different keys. -/
theorem reportKey_inj {a b : Int} (ha : 0 ≤ a) (hb : 0 ≤ b) (h : reportKey a = reportKey b) : a = b := by
  rw [reportKey_eq, reportKey_eq, List.append_left_inj, List.append_right_inj] at h
  have hnat : a.toNat = b.toNat := decimal_injective h
  omega

/-- The keys of ascending addresses from a nonnegative one on are different from each other. -/
theorem nodup_reportKeys {first : Int} {n : Nat} (h : 0 < n → 0 ≤ first) :
    ((List.range n).map fun (k : Nat) => reportKey (first + (k : Int))).Nodup := by
  refine List.Nodup.map_on (fun j hj k _ hkey => ?_) List.nodup_range
  have hfirst : 0 ≤ first := h (Nat.zero_lt_of_lt (List.mem_range.1 hj))
  have haddr := reportKey_inj (by omega) (by omega) hkey
  omega

/-- Settles O55: the members are those of the mapping, and a range that is not empty begins inside memory, so no
address is negative and no key comes twice. -/
theorem reportJsonKeysAndValues : Obligations.ReportJsonKeysAndValues := by
  intro s r h
  refine ⟨_, report_of_inBounds h, by rw [reportJson_eq, List.map_map]; rfl, ?_⟩
  rw [reportJson, List.map_map, List.map_map]
  exact nodup_reportKeys fun hpos => (h r.first le_rfl (by omega)).1

end Sys2Proof
end

section
/-! Proofs of the reset and hazards family, part 2 (R203-R210): every run ends, and what the two invocations write,
exit with and report. -/

namespace Sys2Proof

open Machine Assembler Report

/-! ### Every run of a program ends (R119) -/

/-- An instruction that decodes lies within the program. -/
theorem decodeAt_ok_le {P : List Byte} {pc n : Nat} {i : Instr} (h : decodeAt P pc = .ok (i, n)) :
    pc + n ≤ P.length := by
  obtain ⟨op, rest, hbytes, -, rfl, hlen⟩ := decodeBytes_ok h
  have hdrop := congrArg List.length hbytes
  rw [List.length_drop, List.length_cons] at hdrop
  rcases lengthOf_cases op with hop | hop <;> omega

theorem decodeAt_ne_noTagByte {P : List Byte} {pc : Nat} (h : pc < P.length) : decodeAt P pc ≠ .error .noTagByte := by
  intro he
  rw [decodeAt_eq_cons h] at he
  rcases decodeBytes_cons_error he with he | ⟨needed, remaining, he⟩ <;> cases he

/-- Every instruction answers a next state that keeps the program (R32). -/
theorem exists_exec_next (i : Instr) (s : State) : ∃ t, exec i s = .next t ∧ t.prog = s.prog := by
  rcases exec_cases i s with ⟨v, -, -, hexec⟩ | ⟨info, -, hexec⟩
  · exact ⟨_, hexec, rfl⟩
  · exact ⟨_, hexec, rfl⟩

/-- A running machine within its program steps: it ends the run, executes an instruction or takes an error. -/
theorem exists_step_next {s : State} (hs : s.status = .running) (hpc : PcWithin s) : ∃ t, step s = .next t := by
  simp only [step, hs]
  rcases fetch_cases s with ⟨-, hf⟩ | ⟨i, n, -, -, hf⟩ | ⟨tag, -, -, hf⟩ | ⟨tag, n, r, -, -, hf⟩ | ⟨hne, hd, -⟩
  · exact ⟨_, by rw [hf]⟩
  · obtain ⟨t, hexec, -⟩ := exists_exec_next i s
    exact ⟨t, by rw [hf]; exact hexec⟩
  · exact ⟨_, by rw [hf]⟩
  · exact ⟨_, by rw [hf]⟩
  · exact absurd hd (decodeAt_ne_noTagByte (Nat.lt_of_le_of_ne hpc hne))

/-- A step that leaves the machine running passed at least nine bytes of the program, which it keeps. -/
theorem step_to_running_passes {s t : State} (h : step s = .next t) (ht : t.status = .running) :
    t.prog = s.prog ∧ s.pc + 9 ≤ t.pc ∧ PcWithin t := by
  obtain ⟨i, n, hd, hexec, hpc, hn⟩ := stepAdvancesByLength s t h ht
  obtain ⟨u, hu, hprog⟩ := exists_exec_next i s
  obtain rfl := Host.Outcome.next.inj (hexec.symm.trans hu)
  have hle := decodeAt_ok_le hd
  exact ⟨hprog, by omega, by rw [PcWithin, hprog]; omega⟩

/-- Each step that does not end the run passes nine of the bytes left, so the run ends within one step more than
nines are left (R119). -/
theorem ended_runSteps {k : Nat} {s : State} (hpc : PcWithin s) (hk : s.prog.length < s.pc + 9 * k) :
    Ended (runSteps k s) := by
  induction k generalizing s with
  | zero => omega
  | succ k ih =>
    by_cases hs : s.status = .running
    · obtain ⟨t, hstep⟩ := exists_step_next hs hpc
      rw [runSteps_succ_of_next hstep]
      by_cases ht : t.status = .running
      · obtain ⟨hprog, hadvance, hwithin⟩ := step_to_running_passes hstep ht
        exact ih hwithin (by rw [hprog]; omega)
      · rwa [runSteps_of_ended ht]
    · rwa [runSteps_of_ended hs]

theorem ended_runProgram (cfg : Config) (P : List Byte) : Ended (runProgram cfg P) := by
  have hbudget : stepBudget P = P.length / 9 + 1 := rfl
  exact ended_runSteps (Nat.zero_le _) (by rw [hbudget, start_prog, start_pc]; omega)

/-! ### The Decoder's invocation (R203, R209, R210) -/

theorem decoderInvocation_of_range (cfg : Config) (P : List Byte) {t : Text} {r : Range} (h : parseRange t = some r) :
    decoderInvocation cfg P t = reportInvocation (runProgram cfg P) r := by
  rw [decoderInvocation, h]

section
variable {s : State} {r : Range}

theorem reportInvocation_of_faulted {e : ErrRecord} (h : s.status = .faulted e) :
    reportInvocation s r = fail (.runError e) := by
  rw [reportInvocation, h]

theorem reportInvocation_of_report_error {info : ErrInfo} (h : s.status = .done) (hr : report s r = .error info) :
    reportInvocation s r = fail (.reportError info) := by
  simp only [reportInvocation, h, hr]

theorem reportInvocation_of_report_ok {entries : List (Int × Int)} (h : s.status = .done)
    (hr : report s r = .ok entries) : reportInvocation s r = succeed (reportJson entries) := by
  simp only [reportInvocation, h, hr]

end

/-- The Decoder's invocation succeeds with the report of a run that ended done. -/
def WritesReport (cfg : Config) (P : List Byte) (t : Text) (out : JsonObject) : Prop :=
  ∃ (r : Range) (entries : List (Int × Int)), parseRange t = some r ∧ (runProgram cfg P).status = .done ∧
    report (runProgram cfg P) r = .ok entries ∧ out = reportJson entries

theorem decoderInvocation_of_writesReport {cfg : Config} {P : List Byte} {t : Text} {out : JsonObject}
    (h : WritesReport cfg P t out) : decoderInvocation cfg P t = succeed out := by
  obtain ⟨r, entries, hrange, hdone, hreport, rfl⟩ := h
  rw [decoderInvocation_of_range cfg P hrange, reportInvocation_of_report_ok hdone hreport]

/-- The Decoder's invocation has no third outcome: the report of a done run, or a failure that is never `notEnded`,
because the run has ended (R119). -/
theorem decoderInvocation_cases (cfg : Config) (P : List Byte) (t : Text) :
    (∃ out, WritesReport cfg P t out ∧ decoderInvocation cfg P t = succeed out) ∨
    (∃ d, d ≠ .notEnded ∧ decoderInvocation cfg P t = fail d) := by
  rcases hrange : parseRange t with _ | r
  · exact .inr ⟨.badRange, by simp, decoderInvocation_of_badRange cfg P hrange⟩
  have hinv := decoderInvocation_of_range cfg P hrange
  rcases hstatus : (runProgram cfg P).status with _ | _ | e
  · exact absurd hstatus (ended_runProgram cfg P)
  · rcases hreport : report (runProgram cfg P) r with info | entries
    · exact .inr ⟨.reportError info, by simp, hinv.trans (reportInvocation_of_report_error hstatus hreport)⟩
    · have hwrites : WritesReport cfg P t (reportJson entries) := ⟨r, entries, hrange, hstatus, hreport, rfl⟩
      exact .inl ⟨_, hwrites, decoderInvocation_of_writesReport hwrites⟩
  · exact .inr ⟨.runError e, by simp, hinv.trans (reportInvocation_of_faulted hstatus)⟩

theorem decoderInvocation_written_eq_some_iff (cfg : Config) (P : List Byte) (t : Text) (out : JsonObject) :
    (decoderInvocation cfg P t).written = some out ↔ WritesReport cfg P t out := by
  constructor
  · intro h
    rcases decoderInvocation_cases cfg P t with ⟨out', hout', hinv⟩ | ⟨d, -, hinv⟩
    · rw [hinv] at h
      cases h
      exact hout'
    · rw [hinv] at h
      cases h
  · intro h
    rw [decoderInvocation_of_writesReport h]
    rfl

/-- An exit status of 0 comes with an output and no diagnostic, any other with a diagnostic and no output (R210). -/
theorem decoderInvocation_exit (cfg : Config) (P : List Byte) (t : Text) :
    ((decoderInvocation cfg P t).exit = .zero ↔ (decoderInvocation cfg P t).written.isSome) ∧
    ((decoderInvocation cfg P t).exit = .nonZero ↔ (decoderInvocation cfg P t).diagnostic.isSome) ∧
    (decoderInvocation cfg P t).diagnostic ≠ some .notEnded := by
  rcases decoderInvocation_cases cfg P t with ⟨out, -, hinv⟩ | ⟨d, hd, hinv⟩ <;> rw [hinv]
  · simp [succeed]
  · simp [fail, hd]

/-- Settles O49: the exit status and the diagnostic by the two outcomes of the invocation, what is written by the
outcome that writes, and a faulted run by its error record. -/
theorem decoderWritesOnlyGoodReports : Obligations.DecoderWritesOnlyGoodReports := by
  intro cfg P t
  obtain ⟨hzero, hnonZero, hended⟩ := decoderInvocation_exit cfg P t
  refine ⟨hzero, hnonZero, hended, decoderInvocation_written_eq_some_iff cfg P t, fun r e hrange he => ?_⟩
  exact (decoderInvocation_of_range cfg P hrange).trans (reportInvocation_of_faulted he)

/-! ### The Encoder's invocation (R205, R206, R209, R210) -/

theorem encoderInvocation_of_ok {text : Text} {out : List Byte} {log : List LogRecord}
    (h : encodeProgram text = .ok (out, log)) : encoderInvocation text = succeed (out, logJson log) := by
  rw [encoderInvocation, h]

theorem encoderInvocation_of_error {text : Text} {e : AsmError} (h : encodeProgram text = .error e) :
    encoderInvocation text = fail (.encoderError e) := by
  rw [encoderInvocation, h]

/-- Settles O50: one clause per outcome of the encoding; the members are those of `recordJson`. -/
theorem encoderWritesAllOrNothing : Obligations.EncoderWritesAllOrNothing := fun _ =>
  ⟨fun _ _ => encoderInvocation_of_ok, fun _ => encoderInvocation_of_error⟩

end Sys2Proof
end

section
/-! Proofs of the other statements, part 1 (30_encoding.md): the round trip of decoder and encoder in both directions,
and the words written out from the spec. -/

namespace Sys2Proof

/-- Settles O5: the round trip at the operands read back from the fields. -/
theorem encodedInstrDecodesToItself : Obligations.EncodedInstrDecodesToItself :=
  fun _ rest h => decodeBytes_encode_append h rest

/-! ### The fields that bytes hold -/

/-- The values of the consecutive big-endian fields of the given widths at the start of `bs`. -/
def readFields : (widths : List Nat) → List Byte → List Nat
  | [], _ => []
  | w :: ws, bs => beValue (bs.take w) :: readFields ws (bs.drop w)

/-- The operands of a decoded instruction are the fields after its tag (R70). -/
theorem operandsOf_instrOf_operandAt (op : Opcode) (rest : List Byte) :
    operandsOf (instrOf op (operandAt op rest)) = readFields (widthsOf op) rest := by
  cases op <;> simp [instrOf, operandsOf, operandAt, widthsOf, readFields]

/-- A field of `w` bytes reads below `256 ^ w`, also where fewer bytes are left (R76). -/
theorem beValue_take_lt (w : Nat) (bs : List Byte) : beValue (bs.take w) < 256 ^ w :=
  (beValue_lt _).trans_le (Nat.pow_le_pow_right (by decide) (List.length_take_le w bs))

theorem fitsFields_readFields (ws : List Nat) (bs : List Byte) : fitsFields ws (readFields ws bs) = true := by
  induction ws generalizing bs with
  | nil => rfl
  | cons w ws ih => simp [readFields, fitsFields, beValue_take_lt, ih]

/-- Writing the fields that were read gives their bytes back, when there are enough of them. -/
theorem encodeFields_readFields {ws : List Nat} {bs : List Byte} (h : ws.sum ≤ bs.length) :
    encodeFields ws (readFields ws bs) = bs.take ws.sum := by
  induction ws generalizing bs with
  | nil => rfl
  | cons w ws ih =>
    rw [List.sum_cons] at h
    have hlen : (bs.take w).length = w := List.length_take_of_le (by omega)
    have hfield := beBytes_beValue (bs.take w)
    rw [hlen] at hfield
    rw [readFields, encodeFields, hfield, ih (by rw [List.length_drop]; omega), List.sum_cons, List.take_add]

/-! ### Bytes that decode -/

/-- The other direction of the round trip: what decodes is well-formed, and its encoding stands at the front. -/
theorem decodeBytes_ok_encode {bs : List Byte} {i : Instr} {n : Nat} (h : decodeBytes bs = .ok (i, n)) :
    WellFormed i ∧ n = lengthOf (opcodeOf i) ∧ n ≤ bs.length ∧ encode i = bs.take n := by
  obtain ⟨op, rest, rfl, rfl, rfl, hlen⟩ := decodeBytes_ok h
  have hsucc : lengthOf op = (widthsOf op).sum + 1 := Nat.add_comm _ _
  have hsum : (widthsOf op).sum ≤ rest.length := by omega
  rw [WellFormed, encode_eq, opcodeOf_instrOf, operandsOf_instrOf_operandAt, encodeFields_readFields hsum, hsucc,
    List.take_succ_cons, List.length_cons]
  exact ⟨fitsFields_readFields _ rest, rfl, Nat.succ_le_succ hsum, rfl⟩

/-- Settles O6: the tag as the decoder found it, then the fields as it read them. -/
theorem decodedBytesAreTheEncoding : Obligations.DecodedBytesAreTheEncoding :=
  fun _ _ _ => decodeBytes_ok_encode

/-- Settles O8: each word by evaluation of the decoder. -/
theorem specWordsDecode : Obligations.SpecWordsDecode :=
  ⟨rfl, rfl, rfl, rfl, rfl, rfl⟩

end Sys2Proof
end

section
/-! Proofs of the other statements, part 2 (20_memory.md, 41_memory_transfer.md, 42_integer_sqrt.md): memory as the
function of its reads, and what instructions share: their frame, aliased operands and copies onto themselves. -/

namespace Sys2Proof

open Machine

/-! ### Memory as the function of its reads -/

/-- Settles O11: induction from the last write on, which is read back at its own cell and seen at no other. -/
theorem latestWriteIsRead : Obligations.LatestWriteIsRead := by
  intro ws a
  induction ws using List.reverseRecOn with
  | nil => rfl
  | append_singleton ws w ih =>
    rw [List.foldl_append, List.foldl_cons, List.foldl_nil, read_write, ih, List.filter_append]
    by_cases hw : w.1 = a
    · simp [hw]
    · simp [hw]

theorem read_cons_same (a : Nat) (v : Int) (m : Memory) : Memory.read ((a, v) :: m) a = v := if_pos rfl

theorem read_cons_of_ne {a b : Nat} (h : b ≠ a) (v : Int) (m : Memory) : Memory.read ((b, v) :: m) a = m.read a :=
  if_neg h

/-- A cell that reads as nonzero is listed with what it reads as. -/
theorem mem_of_read_ne_zero {m : Memory} {a : Nat} (h : m.read a ≠ 0) : (a, m.read a) ∈ m := by
  induction m with
  | nil => exact absurd rfl h
  | cons c m ih =>
    obtain ⟨b, v⟩ := c
    by_cases hb : b = a
    · subst hb
      rw [read_cons_same]
      exact List.mem_cons_self
    · rw [read_cons_of_ne hb] at h ⊢
      exact List.mem_cons_of_mem _ (ih h)

/-- With rising indices a listed cell reads as it is listed: nothing before it has its index. -/
theorem read_of_mem {m : Memory} (hm : m.Pairwise fun c d => c.1 < d.1) {a : Nat} {v : Int} (h : (a, v) ∈ m) :
    m.read a = v := by
  induction m with
  | nil => cases h
  | cons c m ih =>
    obtain ⟨b, w⟩ := c
    obtain ⟨hb, hm⟩ := List.pairwise_cons.1 hm
    rcases List.mem_cons.1 h with heq | hmem
    · cases heq
      exact read_cons_same a v m
    · rw [read_cons_of_ne (hb _ hmem).ne, ih hm hmem]

/-- A canonical memory lists exactly the cells that read as nonzero, with what they read as. -/
theorem mem_iff_read_of_wf {m : Memory} (hm : m.wf) (a : Nat) (v : Int) : (a, v) ∈ m ↔ m.read a = v ∧ v ≠ 0 := by
  obtain ⟨hrising, hnonzero⟩ := hm
  constructor
  · intro h
    exact ⟨read_of_mem hrising h, hnonzero _ h⟩
  · rintro ⟨rfl, hv⟩
    exact mem_of_read_ne_zero hv

/-- Settles O12: the reads fix which cells are listed, and rising indices fix the order. -/
theorem canonicalMemoryIsItsReads : Obligations.CanonicalMemoryIsItsReads := by
  intro m m' hm hm' hread
  have hirrefl : Std.Irrefl fun c d : Nat × Int => c.1 < d.1 := ⟨fun c => Nat.lt_irrefl c.1⟩
  have hantisymm : Std.Antisymm fun c d : Nat × Int => c.1 < d.1 := ⟨fun _ _ h h' => absurd h' h.asymm⟩
  refine hm.1.eq_of_mem_iff hm'.1 fun ⟨a, v⟩ => ?_
  rw [mem_iff_read_of_wf hm, mem_iff_read_of_wf hm', hread]

/-- Writing to a cell of a canonical memory what it already holds changes nothing. -/
theorem write_read_self {m : Memory} (hm : m.wf) (a : Nat) : m.write a (m.read a) = m := by
  refine canonicalMemoryIsItsReads _ _ (wf_write m a _ hm) hm fun b => ?_
  rw [read_write]
  split
  · next hab => rw [hab]
  · rfl

/-! ### The frame of an instruction (R37, R58) -/

/-- An executed instruction changes no cell but that of its store address, and then `pc`; or the status alone. -/
theorem exec_frame {i : Instr} {s t : State} (h : exec i s = .next t) :
    t.cfg = s.cfg ∧ t.prog = s.prog ∧ (∀ a : Nat, (a : Int) ≠ storeAddr i → t.mem.read a = s.mem.read a) ∧
      ((t.status = s.status ∧ t.pc = s.pc + lengthOf (opcodeOf i)) ∨
        ∃ info, t = raise s (tagByte (opcodeOf i)) info) := by
  rcases exec_cases i s with ⟨v, hin, -, hexec⟩ | ⟨info, -, hexec⟩
  · obtain rfl := Host.Outcome.next.inj (hexec.symm.trans h)
    exact ⟨rfl, rfl, fun a ha => read_write_toNat_of_ne s.mem v hin.1 ha, .inl ⟨rfl, rfl⟩⟩
  · obtain rfl := Host.Outcome.next.inj (hexec.symm.trans h)
    exact ⟨rfl, rfl, fun _ _ => rfl, .inr ⟨info, rfl⟩⟩

/-- Settles O20: the frame, with the store address written out for each instruction. -/
theorem instructionFrame : Obligations.InstructionFrame := by
  intro i s t h
  have hframe := exec_frame h
  cases i <;> exact hframe

/-! ### Aliased operands (70_reset_and_hazards.md, Hazards) -/

theorem exec_readMemory_same_cell {base offset : Nat} {s : State} (hbase : base < s.cfg.memSize)
    (haddr : InBounds s (s.mem.read base + offset)) :
    ∃ m : Memory, exec (.readMemory base base offset) s = .next { s with mem := m, pc := s.pc + 11 } ∧
      m.read base = s.mem.read (s.mem.read base + offset).toNat := by
  obtain ⟨m, hretire, hloaded, -⟩ := retire_memWrite_of_lt .readMemory _ hbase
  exact ⟨m, (exec_readMemory_of_addr_inBounds base hbase haddr).trans hretire, hloaded⟩

theorem exec_writeMemory_same_cell {d : Nat} {s : State} (hd : d < s.cfg.memSize) :
    ∃ m : Memory, exec (.writeMemory d d) s = .next { s with mem := m, pc := s.pc + 9 } ∧
      ∀ a : Nat, m.read a = s.mem.read a := by
  obtain ⟨m, hretire, hcopied, hother⟩ := retire_memWrite_of_lt .writeMemory _ hd
  refine ⟨m, (exec_writeMemory_of_lt hd hd).trans hretire, fun a => ?_⟩
  by_cases ha : a = d
  · rw [ha, hcopied]
  · exact hother a ha

/-- Settles O18: each is the store of a value of the old memory; the aliased cell exists because the source does. -/
theorem aliasedOperandsUseOldValues : Obligations.AliasedOperandsUseOldValues := by
  refine ⟨fun _ _ _ => exec_readMemory_same_cell, fun _ _ => exec_writeMemory_same_cell, ?_⟩
  intro dstBase dstOffset srcPtr s hptr haddr hsign halias
  have hdst : dstBase + dstOffset < s.cfg.memSize := by
    rcases halias with hcell | hcell
    · rwa [hcell]
    · rwa [← hcell, inBounds_natCast] at haddr
  obtain ⟨m, hretire, hroot, -⟩ := retire_memWrite_of_lt .sqrt _ hdst
  exact ⟨m, (exec_sqrt_of_nonneg dstBase dstOffset hptr haddr hsign).trans hretire, hroot⟩

/-! ### Copies of a cell onto itself (R134, R138) -/

/-- An instruction that ends by storing to a cell what the cell holds advances and changes nothing else. -/
theorem retire_memWrite_self (op : Opcode) {s : State} {d : Nat} (hm : s.mem.wf) (hd : d < s.cfg.memSize) :
    retire op s (memWrite s (directAddr d) (s.mem.read d)) = .next (advance op s) := by
  have hcell : (directAddr d).toNat = d := rfl
  rw [memWrite_inBounds (inBounds_directAddr.2 hd), hcell, write_read_self hm, retire_ok]

/-- Settles O19: both are the store of a cell's own value. -/
theorem copyOntoItselfChangesNothing : Obligations.CopyOntoItselfChangesNothing := by
  constructor
  · intro d s hm hd
    exact (exec_writeMemory_of_lt hd hd).trans (retire_memWrite_self .writeMemory hm hd)
  · intro dst base offset s hm hbase hdst haddr
    have hin : InBounds s (s.mem.read base + offset) := haddr ▸ inBounds_natCast.2 hdst
    rw [exec_readMemory_of_addr_inBounds dst hbase hin, haddr, Int.toNat_natCast]
    exact retire_memWrite_self .readMemory hm hdst

end Sys2Proof
end

section
/-! Proofs of the other statements, part 3 (10_state.md, 40_sequencing.md, 42_integer_sqrt.md): what every step keeps,
where every run starts, and that every run ends. -/

namespace Sys2Proof

open Machine

/-! ### Memory under a step -/

/-- The memory `m` is that of `s`, or that of `s` with the one write of a well-formed instruction. -/
inductive StepWrites (s : State) : Memory → Prop where
  | none : StepWrites s s.mem
  | store {i : Instr} {v : Int} (hwf : WellFormed i) (hin : InBounds s (storeAddr i)) (hv : StoredValue s i v) :
      StepWrites s (s.mem.write (storeAddr i).toNat v)

theorem wellFormed_of_decodeAt {P : List Byte} {pc n : Nat} {i : Instr} (h : decodeAt P pc = .ok (i, n)) :
    WellFormed i := by
  obtain ⟨hwf, -⟩ := decodeBytes_ok_encode h
  exact hwf

/-- Every step keeps the program and the memory size and makes at most one write, that of a decoded instruction. -/
theorem step_keeps_prog_cfg_and_writes {s t : State} (h : step s = .next t) :
    t.prog = s.prog ∧ t.cfg = s.cfg ∧ StepWrites s t.mem := by
  obtain ⟨-, ⟨-, rfl⟩ | ⟨i, n, hd, hexec⟩ | ⟨tag, -, rfl⟩ | ⟨tag, needed, remaining, -, rfl⟩⟩ := step_cases h
  · exact ⟨rfl, rfl, .none⟩
  · rcases exec_cases i s with ⟨v, hin, hv, hnext⟩ | ⟨info, -, hnext⟩
    · obtain rfl := Host.Outcome.next.inj (hnext.symm.trans hexec)
      exact ⟨rfl, rfl, .store (wellFormed_of_decodeAt hd) hin hv⟩
    · obtain rfl := Host.Outcome.next.inj (hnext.symm.trans hexec)
      exact ⟨rfl, rfl, .none⟩
  · exact ⟨rfl, rfl, .none⟩
  · exact ⟨rfl, rfl, .none⟩

/-- Settles O29: no outcome of a step touches either. -/
theorem programAndSizeNeverChange : Obligations.ProgramAndSizeNeverChange := by
  intro s t h
  obtain ⟨hprog, hcfg, -⟩ := step_keeps_prog_cfg_and_writes h
  exact ⟨hprog, hcfg⟩

/-- The one write of a step keeps the canonical form, and its cell is in bounds. -/
theorem StepWrites.canonical {s : State} {m : Memory} (h : StepWrites s m) (hs : MemoryCanonical s) :
    m.wf ∧ ∀ c ∈ m, c.1 < s.cfg.memSize := by
  obtain ⟨hwf, hlisted⟩ := hs
  cases h with
  | none => exact ⟨hwf, hlisted⟩
  | store _ hin _ =>
    refine ⟨wf_write _ _ _ hwf, fun c hc => ?_⟩
    rcases mem_write _ _ _ c hc with rfl | hc
    · exact (Int.toNat_lt hin.1).2 hin.2
    · exact hlisted c hc

/-- Settles O30: the memory after the step is canonical within the memory size before it, which the step keeps. -/
theorem stepKeepsMemoryCanonical : Obligations.StepKeepsMemoryCanonical := by
  intro s t hs h
  obtain ⟨-, hcfg, hwrites⟩ := step_keeps_prog_cfg_and_writes h
  rw [MemoryCanonical, hcfg]
  exact hwrites.canonical hs

/-! ### Cells in range (R36) -/

/-- A stored value is a field of four bytes, a cell's value, or a root, which is at most its radicand. -/
theorem storedValue_in_range {s : State} {i : Instr} {v : Int} (hs : CellsInRange s) (hwf : WellFormed i)
    (hv : StoredValue s i v) : 0 ≤ v ∧ v ≤ 2 ^ 32 - 1 := by
  cases hv with
  | immediate dst value =>
    obtain ⟨-, hvalue⟩ : dst < 256 ^ 4 ∧ value < 256 ^ 4 := by
      simpa [WellFormed, fitsFields, opcodeOf, operandsOf, widthsOf] using hwf
    omega
  | loaded dst base offset a => exact hs a
  | copied dst src a => exact hs a
  | root dstBase dstOffset srcPtr a _ =>
    have hcell := hs a
    have hroot : isqrt (s.mem.read a).toNat ≤ (s.mem.read a).toNat := isqrt_eq_sqrt _ ▸ Nat.sqrt_le_self _
    omega

theorem StepWrites.in_range {s : State} {m : Memory} (h : StepWrites s m) (hs : CellsInRange s) (a : Nat) :
    0 ≤ m.read a ∧ m.read a ≤ 2 ^ 32 - 1 := by
  cases h with
  | none => exact hs a
  | store hwf _ hv =>
    rw [read_write]
    split
    · exact storedValue_in_range hs hwf hv
    · exact hs a

theorem step_keeps_cellsInRange (s t : State) (hs : CellsInRange s) (h : step s = .next t) : CellsInRange t := by
  obtain ⟨-, -, hwrites⟩ := step_keeps_prog_cfg_and_writes h
  exact hwrites.in_range hs

theorem start_cellsInRange (cfg : Config) (P : List Byte) : CellsInRange (State.start cfg P) := by
  intro a
  rw [read_start_mem]
  decide

/-- Settles O31: the step lemma, and its induction over runs from the zeroed start. -/
theorem stepKeepsCellsInRange : Obligations.StepKeepsCellsInRange :=
  ⟨step_keeps_cellsInRange, fun cfg P k => runSteps_keeps step_keeps_cellsInRange k _ (start_cellsInRange cfg P)⟩

/-! ### NegativeSqrt is never reached (R153) -/

/-- An instruction takes NegativeSqrt at a negative cell only, and there is none. -/
theorem infoKind_ne_negativeSqrt {s : State} {info : ErrInfo} (hs : CellsInRange s) (h : ExecError s info) :
    infoKind info ≠ .negativeSqrt := by
  cases h with
  | bounds a _ => simp [infoKind]
  | negative a _ hneg => exact absurd (hs a.toNat).1 (Int.not_le.2 hneg)

theorem step_kind_ne_negativeSqrt {s t : State} {e : ErrRecord} (hs : CellsInRange s) (h : step s = .next t)
    (ht : t.status = .faulted e) : e.kind ≠ .negativeSqrt := by
  obtain ⟨hrunning, ⟨-, rfl⟩ | ⟨i, n, -, hexec⟩ | ⟨tag, -, rfl⟩ | ⟨tag, needed, remaining, -, rfl⟩⟩ := step_cases h
  · cases ht
  · rcases exec_cases i s with ⟨v, -, -, hnext⟩ | ⟨info, herror, hnext⟩
    · obtain rfl := Host.Outcome.next.inj (hnext.symm.trans hexec)
      exact absurd (hrunning.symm.trans ht) (by simp)
    · obtain rfl := Host.Outcome.next.inj (hnext.symm.trans hexec)
      cases ht
      exact infoKind_ne_negativeSqrt hs herror
  · cases ht
    simp [ErrRecord.kind, infoKind]
  · cases ht
    simp [ErrRecord.kind, infoKind]

/-- What a run keeps so that no step of it reaches NegativeSqrt, and that it has not ended in one. -/
def NoNegativeSqrt (s : State) : Prop :=
  CellsInRange s ∧ ∀ e : ErrRecord, s.status = .faulted e → e.kind ≠ .negativeSqrt

theorem step_keeps_noNegativeSqrt (s t : State) (hs : NoNegativeSqrt s) (h : step s = .next t) : NoNegativeSqrt t :=
  ⟨step_keeps_cellsInRange s t hs.1 h, fun _ => step_kind_ne_negativeSqrt hs.1 h⟩

theorem start_noNegativeSqrt (cfg : Config) (P : List Byte) : NoNegativeSqrt (State.start cfg P) :=
  ⟨start_cellsInRange cfg P, fun _ he => by cases he⟩

/-- Settles O34: the step lemma, and its induction over runs from the zeroed start. -/
theorem negativeSqrtNeverReached : Obligations.NegativeSqrtNeverReached := by
  refine ⟨fun _ _ _ => step_kind_ne_negativeSqrt, fun cfg P k => ?_⟩
  obtain ⟨-, hstatus⟩ := runSteps_keeps step_keeps_noNegativeSqrt k _ (start_noNegativeSqrt cfg P)
  exact hstatus

/-! ### The decode offset, the start and the end of a run -/

/-- Settles O27: within the program a fetch answers the end, an instruction or bytes that do not decode. -/
theorem runningMachineAlwaysSteps : Obligations.RunningMachineAlwaysSteps :=
  fun _ => exists_step_next

/-- Settles O28: `pc` moves only past an instruction that decoded, which lies within the program. -/
theorem stepKeepsPcWithinProgram : Obligations.StepKeepsPcWithinProgram := by
  intro s t hs h
  obtain ⟨-, ⟨-, rfl⟩ | ⟨i, n, hd, hexec⟩ | ⟨tag, -, rfl⟩ | ⟨tag, needed, remaining, -, rfl⟩⟩ := step_cases h
  · exact hs
  · obtain ⟨-, rfl⟩ := decodeAt_ok hd
    obtain ⟨-, hprog, -, ⟨-, hpc⟩ | ⟨info, rfl⟩⟩ := exec_frame hexec
    · rw [PcWithin, hprog, hpc]
      exact decodeAt_ok_le hd
    · exact hs
  · exact hs
  · exact hs

/-- Settles O26: one case per ended status. -/
theorem endedRunTakesNoStep : Obligations.EndedRunTakesNoStep :=
  fun s => ⟨fun hdone => by rw [step, hdone], fun e hfaulted => by rw [step, hfaulted]⟩

/-- Settles O32: `pc` is 0, no cell is listed, and every cell reads 0. -/
theorem startMeetsInvariants : Obligations.StartMeetsInvariants := by
  refine ⟨rfl, fun cfg P => ⟨Nat.zero_le _, ⟨?_, ?_⟩, start_cellsInRange cfg P⟩⟩
  · exact ⟨List.Pairwise.nil, fun _ => by simp⟩
  · simp

/-- Settles O35: a run that passed nine bytes of the program with each of `k` steps has at most `L / 9` of them. -/
theorem everyRunEnds : Obligations.EveryRunEnds := by
  intro cfg P
  have hended {k : Nat} (hk : P.length < 9 * k) : Ended (runSteps k (State.start cfg P)) :=
    ended_runSteps (Nat.zero_le _) (by rw [start_prog, start_pc]; omega)
  refine ⟨fun k hrunning => ?_, hended (by omega)⟩
  by_contra hk
  exact hended (by omega) hrunning

end Sys2Proof
end

section
/-! Proofs of the other statements, part 4 (30_encoding.md): lines that assemble, the canonical line of an
instruction, and lines that change nothing. -/

namespace Sys2Proof.Assembler

/-! ### A line that assembles -/

theorem operandOfToken_lt {w v : Nat} {t : Text} (h : operandOfToken w t = some v) : v < 256 ^ w := by
  rw [operandOfToken] at h
  split at h
  · split_ifs at h with hv
    rwa [← Option.some.inj h]
  · cases h
  · cases h

/-- Accepted operands fit their fields, and are as many (R97). -/
theorem fitsFields_of_operandsOfTokens {ws vs : List Nat} {ts : List Text} (h : operandsOfTokens ws ts = some vs) :
    fitsFields ws vs = true := by
  induction ws generalizing ts vs with
  | nil =>
    cases ts with
    | nil => cases h; rfl
    | cons t ts => cases h
  | cons w ws ih =>
    cases ts with
    | nil => cases h
    | cons t ts =>
      rw [operandsOfTokens] at h
      cases hv : operandOfToken w t with
      | none => simp [hv] at h
      | some v =>
        simp only [hv, Option.map_eq_some_iff] at h
        obtain ⟨vs, hvs, rfl⟩ := h
        simp [fitsFields, operandOfToken_lt hv, ih hvs]

theorem length_eq_of_fitsFields {ws vs : List Nat} (h : fitsFields ws vs = true) : vs.length = ws.length := by
  induction ws generalizing vs with
  | nil =>
    cases vs with
    | nil => rfl
    | cons v vs => cases h
  | cons w ws ih =>
    cases vs with
    | nil => cases h
    | cons v vs =>
      obtain ⟨-, hvs⟩ : v < 256 ^ w ∧ fitsFields ws vs = true := by simpa [fitsFields] using h
      rw [List.length_cons, List.length_cons, ih hvs]

/-- What a line that assembles has passed: its opcode, and operands that fit. -/
theorem assembleLine_ok {s : Text} {i : Instr} (h : assembleLine s = .ok i) :
    ∃ (op : Opcode) (vs : List Nat), i = instrOf op (fun j => vs.getD j 0) ∧ fitsFields (widthsOf op) vs = true := by
  rw [assembleLine] at h
  split at h
  · cases h
  · split at h
    · cases h
    · next op _ =>
      split_ifs at h
      split at h
      · cases h
      · next vs hvs => exact ⟨op, vs, (Except.ok.inj h).symm, fitsFields_of_operandsOfTokens hvs⟩

theorem wellFormed_of_assembleLine {s : Text} {i : Instr} (h : assembleLine s = .ok i) : WellFormed i := by
  obtain ⟨op, vs, rfl, hfits⟩ := assembleLine_ok h
  rwa [WellFormed, opcodeOf_instrOf, operandsOf_instrOf_getD (length_eq_of_fitsFields hfits)]

/-- Settles O41: the operands passed the range checks, and well-formed instructions make the round trip. -/
theorem assembledLineDecodesToItsInstr : Obligations.AssembledLineDecodesToItsInstr := by
  intro s i h
  have hwf := wellFormed_of_assembleLine h
  refine ⟨hwf, ?_⟩
  simpa [decodeAt] using decodeBytes_encode_append hwf []

/-! ### The canonical line (R103) -/

/-- A token as R93 cuts it: nonempty and without whitespace. -/
def IsToken (t : Text) : Prop := t ≠ [] ∧ ∀ x ∈ t, isSpace x = false

theorem isToken_decimal (n : Nat) : IsToken (decimal n) := by
  have hspells := spellsDecimal_decimal n
  refine ⟨hspells.ne_nil, fun x hx => ?_⟩
  have hdigit := hspells.digits x hx
  rw [isSpace_eq_false_iff]
  intro hspace
  fin_cases hspace <;> simp at hdigit

/-- Tokens joined by single spaces are split into those tokens. -/
theorem splitsInto_spaced {ts : List Text} (h : ∀ t ∈ ts, IsToken t) : SplitsInto (spaced ts) ts := by
  induction ts with
  | nil => exact splitsInto_nil
  | cons t ts ih =>
    obtain ⟨⟨hne, ht⟩, hts⟩ := List.forall_mem_cons.1 h
    cases ts with
    | nil => simpa [spaced] using splitsInto_nil.append_token hne ht (by simp)
    | cons t' ts =>
      have hrest : SplitsInto (0x20 :: spaced (t' :: ts)) (t' :: ts) := (ih hts).cons_space rfl
      exact hrest.append_token hne ht (by rintro x ⟨⟩; rfl)

theorem spaced_ne_nil {t : Text} (h : t ≠ []) (ts : List Text) : spaced (t :: ts) ≠ [] := by
  cases ts <;> simp [spaced, h]

/-- The first byte of joined tokens is in the first token, so it is no whitespace. -/
theorem isSpace_of_head?_spaced {ts : List Text} (h : ∀ t ∈ ts, IsToken t) {x : Byte}
    (hx : (spaced ts).head? = some x) : isSpace x = false := by
  cases ts with
  | nil => cases hx
  | cons t ts =>
    obtain ⟨hne, ht⟩ := h t List.mem_cons_self
    refine ht x (List.mem_of_head? ?_)
    cases ts with
    | nil => exact hx
    | cons t' ts => rwa [spaced, List.head?_append_of_ne_nil _ hne] at hx

/-- The last byte of joined tokens is in the last token, so it is no whitespace. -/
theorem isSpace_of_getLast?_spaced {ts : List Text} (h : ∀ t ∈ ts, IsToken t) {x : Byte}
    (hx : (spaced ts).getLast? = some x) : isSpace x = false := by
  induction ts with
  | nil => cases hx
  | cons t ts ih =>
    obtain ⟨⟨hne, ht⟩, hts⟩ := List.forall_mem_cons.1 h
    cases ts with
    | nil => exact ht x (List.mem_of_getLast? hx)
    | cons t' ts =>
      have hrest : spaced (t' :: ts) ≠ [] := spaced_ne_nil (hts t' List.mem_cons_self).1 ts
      obtain ⟨y, ys, hy⟩ := List.exists_cons_of_ne_nil hrest
      refine ih hts ?_
      rw [spaced, List.getLast?_append_of_ne_nil _ (List.cons_ne_nil _ _), hy, List.getLast?_cons_cons] at hx
      rw [hy, hx]

theorem trim_spaced {ts : List Text} (h : ∀ t ∈ ts, IsToken t) : trim (spaced ts) = spaced ts := by
  simpa using trim_append_append (a := []) (u := spaced ts) (b := []) (by simp) (by simp)
    (fun _ => isSpace_of_head?_spaced h) (fun _ => isSpace_of_getLast?_spaced h)

/-- Decimal spellings of values that fit are accepted with those values. -/
theorem operandsOfTokens_decimal {ws vs : List Nat} (h : fitsFields ws vs = true) :
    operandsOfTokens ws (vs.map decimal) = some vs := by
  induction ws generalizing vs with
  | nil =>
    cases vs with
    | nil => rfl
    | cons v vs => cases h
  | cons w ws ih =>
    cases vs with
    | nil => cases h
    | cons v vs =>
      obtain ⟨hv, hvs⟩ : v < 256 ^ w ∧ fitsFields ws vs = true := by simpa [fitsFields] using h
      have hfirst : operandOfToken w (decimal v) = some v :=
        operandOfToken_of_fits (spellsDecimal_decimal v).tokenValue_eq hv
      simp [operandsOfTokens, hfirst, ih hvs]

/-- Settles O42: the tokens of the line are the decimal spellings, which the checks read back. -/
theorem canonicalLineAssembles : Obligations.CanonicalLineAssembles := by
  intro i hwf
  have htokens : ∀ t ∈ (tagOf (opcodeOf i) :: operandsOf i).map decimal, IsToken t := by
    simpa using ⟨isToken_decimal _, fun v _ => isToken_decimal v⟩
  have hsplit : tokens (canonicalLine i) = decimal (tagOf (opcodeOf i)) :: (operandsOf i).map decimal :=
    (tokens_eq_iff _ _).2 (splitsInto_spaced htokens)
  have hop : opcodeOfToken (decimal (tagOf (opcodeOf i))) = some (opcodeOf i) :=
    opcodeOfToken_of_tagOf (spellsDecimal_decimal _).tokenValue_eq
  refine ⟨trim_spaced htokens, ?_⟩
  rw [assembleLine_of_operands hsplit hop (by simp) (operandsOfTokens_decimal hwf), instrOf_operandsOf]

/-! ### Lines that change nothing (R92, R102) -/

/-- A text that is empty or ends with a line feed is cut off from what follows it. -/
theorem exists_physicalLines_append {before : Text} (h : before = [] ∨ before.getLast? = some lineFeed) :
    ∃ raws : List Text, ∀ after : Text, physicalLines (before ++ after) = raws ++ physicalLines after := by
  rcases h with rfl | hlast
  · exact ⟨[], fun _ => rfl⟩
  · obtain ⟨text, rfl⟩ := List.getLast?_eq_some_iff.1 hlast
    refine ⟨physicalLines text, fun after => ?_⟩
    rw [List.append_assoc, List.singleton_append]
    exact splitAtByte_append_sep lineFeed text after

section
variable {text text' line : Text} {raws raws' : List Text} (hskip : isSkipped (trim line) = true)
  (htext : physicalLines text = raws ++ raws') (htext' : physicalLines text' = raws ++ line :: raws')
include hskip htext htext'

/-- A skipped line in between gives no bytes, no record and no error. -/
theorem encodeProgram_insert_eq_ok_iff (out : List Byte) (log : List LogRecord) :
    encodeProgram text' = .ok (out, log) ↔ encodeProgram text = .ok (out, log) := by
  have htuple : lineTuple line = none := lineTuple_of_skipped hskip
  have hrecord : lineRecord line = none := by rw [lineRecord, htuple, Option.map_none]
  have hgood : (∀ raw ∈ raws ++ line :: raws', GoodLine raw) ↔ ∀ raw ∈ raws ++ raws', GoodLine raw := by
    have hline : GoodLine line := .inl hskip
    simp only [List.forall_mem_append, List.forall_mem_cons, hline, true_and]
  rw [encodeProgram_eq_ok_iff, encodeProgram_eq_ok_iff, lineTuples, lineTuples, htext, htext', hgood]
  simp [htuple, hrecord]

/-- A skipped line in between leaves the first line that fails the first that fails. -/
theorem encodeProgram_insert_error {e : AsmError} (h : encodeProgram text = .error e) :
    ∃ e' : AsmError, encodeProgram text' = .error e' ∧ e'.kind = e.kind ∧ e'.text = e.text := by
  obtain ⟨before, raw, after, hlines, hbefore, hbad, -, hraw⟩ := (encodeProgram_eq_error_iff text e).1 h
  have hline : GoodLine line := .inl hskip
  have hfails (before' : List Text) {after' : List Text} (hlines' : physicalLines text' = before' ++ raw :: after')
      (hbefore' : ∀ r ∈ before', GoodLine r) :
      ∃ e' : AsmError, encodeProgram text' = .error e' ∧ e'.kind = e.kind ∧ e'.text = e.text :=
    ⟨_, encodeProgram_of_bad hlines' hbefore' hbad, rfl, hraw.symm⟩
  rw [htext] at hlines
  rcases List.append_eq_append_iff.1 hlines with ⟨mid, rfl, rfl⟩ | ⟨mid, rfl, hmid⟩
  · obtain ⟨hraws, hmid⟩ := List.forall_mem_append.1 hbefore
    exact hfails (raws ++ line :: mid) (after' := after) (by simp [htext'])
      (List.forall_mem_append.2 ⟨hraws, List.forall_mem_cons.2 ⟨hline, hmid⟩⟩)
  · rcases List.append_eq_cons_iff.1 hmid.symm with ⟨rfl, rfl⟩ | ⟨mid, rfl, rfl⟩
    · exact hfails (before ++ [line]) (after' := after) (by simp [htext'])
        (List.forall_mem_append.2 ⟨hbefore, by simpa using hline⟩)
    · exact hfails before (by simpa using htext') hbefore

end

/-- A skipped line after the last one changes nothing, the line number of an error included. -/
theorem encodeProgram_append_skipped {text text' line : Text} (hskip : isSkipped (trim line) = true)
    (htext' : physicalLines text' = physicalLines text ++ [line]) : encodeProgram text' = encodeProgram text := by
  rcases allGood_or_firstBad (physicalLines text) with hgood | ⟨before, raw, after, k, hlines, hbefore, hbad⟩
  · have h : encodeProgram text = .ok (_, _) := encodeProgram_of_good hgood
    rw [h, encodeProgram_insert_eq_ok_iff hskip (List.append_nil _).symm htext', h]
  · rw [encodeProgram_of_bad hlines hbefore hbad]
    exact encodeProgram_of_bad (by rw [htext', hlines, List.append_assoc, List.cons_append]) hbefore hbad

/-- Settles O43: the inserted line is one physical line, which is skipped. -/
theorem commentsAndBlanksChangeNothing : Obligations.CommentsAndBlanksChangeNothing := by
  constructor
  · intro before line after hbefore hfeed hskip
    obtain ⟨raws, hraws⟩ := exists_physicalLines_append hbefore
    have hinserted : physicalLines (before ++ line ++ lineFeed :: after) = raws ++ line :: physicalLines after := by
      rw [List.append_assoc, hraws, physicalLines, splitAtByte_append_sep, splitAtByte_of_not_mem hfeed]
      rfl
    exact ⟨encodeProgram_insert_eq_ok_iff hskip (hraws after) hinserted,
      fun _ => encodeProgram_insert_error hskip (hraws after) hinserted⟩
  · intro text line hfeed hskip
    apply encodeProgram_append_skipped hskip
    rw [physicalLines, splitAtByte_append_sep, splitAtByte_of_not_mem hfeed]
    rfl

end Sys2Proof.Assembler
end

section
/-! Proofs of the other statements, part 5 (40_sequencing.md, 30_encoding.md): what a run has executed when it ends,
and that running the Encoder's bytes is executing its line tuples. -/

namespace Sys2Proof

open Machine Assembler

/-! ### One instruction of a run -/

/-- Where an instruction decodes, its encoding stands, and then the bytes past its length. -/
theorem drop_eq_encode_append {s : State} {i : Instr} {n : Nat} (hd : decodeAt s.prog s.pc = .ok (i, n)) :
    s.prog.drop s.pc = encode i ++ s.prog.drop (s.pc + n) := by
  obtain ⟨-, -, -, hencode⟩ := decodeBytes_ok_encode hd
  rw [hencode, ← List.drop_drop, List.take_append_drop]

theorem runTuples_cons_of_running {i : Instr} {s t : State} (hexec : exec i s = .next t) (ht : t.status = .running)
    (is : List Instr) : runTuples (i :: is) s = runTuples is t := by
  simp only [runTuples, hexec, ht, if_true]

theorem runTuples_cons_of_ended {i : Instr} {s t : State} (hexec : exec i s = .next t) (ht : Ended t)
    (is : List Instr) : runTuples (i :: is) s = t := by
  simp only [runTuples, hexec, if_neg ht]

/-- An instruction that leaves a running machine running moved `pc` past itself. -/
theorem exec_to_running {i : Instr} {s t : State} (h : exec i s = .next t) (ht : t.status = .running) :
    t.prog = s.prog ∧ t.pc = s.pc + (encode i).length := by
  rw [encode_length]
  obtain ⟨-, hprog, -, ⟨-, hpc⟩ | ⟨info, rfl⟩⟩ := exec_frame h
  · exact ⟨hprog, hpc⟩
  · cases ht

/-! ### What an ended run has executed (R120) -/

/-- From `s` on, `u` has executed the instructions `is` and no other: they are its program's bytes from `s.pc` up to
`u.pc`, and executing them directly from `s` gives `u` but for the status. -/
structure ExecutedFrom (s u : State) (is : List Instr) : Prop where
  wellFormed : ∀ i ∈ is, WellFormed i
  bytes : s.prog.drop s.pc = is.flatMap encode ++ u.prog.drop u.pc
  pc : u.pc = s.pc + (is.flatMap encode).length
  result : runTuples is s = finish u

/-- A step that ends the run executed nothing. -/
theorem executedFrom_nil {s u : State} (hprog : u.prog = s.prog) (hpc : u.pc = s.pc) (hfinish : finish u = finish s) :
    ExecutedFrom s u [] where
  wellFormed := by simp
  bytes := by simp [hprog, hpc]
  pc := by simp [hpc]
  result := by rw [hfinish]; rfl

theorem ExecutedFrom.cons {s t u : State} {i : Instr} {is : List Instr} {n : Nat} (h : ExecutedFrom t u is)
    (hd : decodeAt s.prog s.pc = .ok (i, n)) (hexec : exec i s = .next t) (ht : t.status = .running) :
    ExecutedFrom s u (i :: is) := by
  obtain ⟨hprog, hpc⟩ := exec_to_running hexec ht
  obtain ⟨-, rfl⟩ := decodeAt_ok hd
  have hbytes := h.bytes
  rw [hprog, hpc, encode_length] at hbytes
  exact
    { wellFormed := List.forall_mem_cons.2 ⟨wellFormed_of_decodeAt hd, h.wellFormed⟩
      bytes := by rw [drop_eq_encode_append hd, hbytes, List.flatMap_cons, List.append_assoc]
      pc := by rw [h.pc, hpc, List.flatMap_cons, List.length_append, Nat.add_assoc]
      result := by rw [runTuples_cons_of_running hexec ht, h.result] }

/-- How a run ends: at the end of its program, or by an error of the instruction at `pc`. -/
def EndsAtPc (u : State) : Prop :=
  (u.status = .done ∧ u.pc = u.prog.length) ∨ ∃ e : ErrRecord, u.status = .faulted e ∧ e.offset = u.pc

/-- A step that ends the run ends it at `pc`, and changes the status alone. -/
theorem step_to_ended {s t : State} (h : step s = .next t) (ht : Ended t) :
    EndsAtPc t ∧ t.prog = s.prog ∧ t.pc = s.pc ∧ finish t = finish s := by
  cases hstatus : t.status with
  | running => exact absurd hstatus ht
  | done =>
    obtain ⟨hs, hpc⟩ := step_to_done h hstatus
    obtain rfl := Host.Outcome.next.inj ((step_of_pc_eq_length hs hpc).symm.trans h)
    exact ⟨.inl ⟨rfl, hpc⟩, rfl, rfl, rfl⟩
  | faulted e =>
    obtain ⟨-, rfl, hoffset, -⟩ := errorChangesStatusOnly s t e h hstatus
    exact ⟨.inr ⟨e, rfl, hoffset⟩, rfl, rfl, rfl⟩

/-- A run that ended executed the instructions up to its end, one by one. -/
theorem exists_executedFrom {k : Nat} {s : State} (hs : s.status = .running) (hended : Ended (runSteps k s)) :
    EndsAtPc (runSteps k s) ∧ ∃ is, ExecutedFrom s (runSteps k s) is := by
  induction k generalizing s with
  | zero => exact absurd hs hended
  | succ k ih =>
    cases hstep : step s with
    | fault r => rw [runSteps, hstep] at hended; exact absurd hs hended
    | refused r => rw [runSteps, hstep] at hended; exact absurd hs hended
    | next t =>
      rw [runSteps_succ_of_next hstep] at hended ⊢
      by_cases ht : t.status = .running
      · obtain ⟨hend, is, his⟩ := ih ht hended
        obtain ⟨i, n, hd, hexec⟩ := step_to_running hstep ht
        exact ⟨hend, i :: is, his.cons hd hexec ht⟩
      · rw [runSteps_of_ended ht]
        obtain ⟨hend, hprog, hpc, hfinish⟩ := step_to_ended hstep ht
        exact ⟨hend, [], executedFrom_nil hprog hpc hfinish⟩

/-- Settles O36: a done run has no bytes left after those executed, and a faulted one faulted at the next. -/
theorem endedRunExecutedItsInstructions : Obligations.EndedRunExecutedItsInstructions := by
  intro cfg P k
  constructor
  · intro hdone
    obtain ⟨⟨-, hpc⟩ | ⟨e, he, -⟩, is, his⟩ :=
      exists_executedFrom (start_status cfg P) (k := k) (by simp [Ended, hdone])
    · refine ⟨is, his.wellFormed, ?_, ?_⟩
      · simpa [hpc] using his.bytes
      · rw [his.result, finish, ← hdone]
    · rw [hdone] at he
      cases he
  · intro e hfaulted
    obtain ⟨⟨hdone, -⟩ | ⟨e', he', hoffset⟩, is, his⟩ :=
      exists_executedFrom (start_status cfg P) (k := k) (by simp [Ended, hfaulted])
    · rw [hdone] at hfaulted
      cases hfaulted
    · obtain rfl : e' = e := by simpa [hfaulted] using he'.symm
      refine ⟨is, _, his.wellFormed, his.bytes, ?_, by rw [his.result, finish_status], by rw [his.result, finish_mem]⟩
      simpa [hoffset] using his.pc

/-! ### Execution does not read the program buffer (R32) -/

/-- The state with the program buffer `P` in place of its own. -/
def withProg (P : List Byte) (s : State) : State := { s with prog := P }

section
variable (P : List Byte) (s : State)

theorem memWrite_withProg (a v : Int) : memWrite (withProg P s) a v = (memWrite s a v).map (withProg P) := by
  by_cases h : InBounds s a
  · rw [memWrite_inBounds h, memWrite_inBounds (s := withProg P s) h]
    rfl
  · rw [memWrite_outOfBounds h, memWrite_outOfBounds (s := withProg P s) h]
    rfl

theorem retire_withProg (op : Opcode) {r r' : Except ErrInfo State} (h : r' = r.map (withProg P)) :
    ∃ t, retire op s r = .next t ∧ retire op (withProg P s) r' = .next (withProg P t) := by
  subst h
  cases r with
  | error info => exact ⟨_, rfl, rfl⟩
  | ok u => exact ⟨_, rfl, rfl⟩

/-- Every instruction does with another program buffer what it does with its own: its reads and checks do not see the
buffer, and its write keeps it. -/
theorem exec_withProg (i : Instr) : ∃ t, exec i s = .next t ∧ exec i (withProg P s) = .next (withProg P t) := by
  have hread (a : Int) : memRead (withProg P s) a = memRead s a := rfl
  cases i with
  | loadConstant dst value => exact retire_withProg P s _ (memWrite_withProg P s _ _)
  | readMemory dst base offset =>
    have haddr : pointerOffsetAddr (withProg P s) base offset = pointerOffsetAddr s base offset := rfl
    refine retire_withProg P s _ ?_
    simp only [haddr, hread, memWrite_withProg]
    cases pointerOffsetAddr s base offset with
    | error e => rfl
    | ok addr =>
      dsimp only
      cases memRead s addr <;> rfl
  | writeMemory dst src =>
    have hcheck (a : Int) : checkBounds (withProg P s) a = checkBounds s a := rfl
    refine retire_withProg P s _ ?_
    simp only [hcheck, hread, memWrite_withProg]
    cases checkBounds s (directAddr dst) with
    | error e => rfl
    | ok u => cases memRead s (directAddr src) <;> rfl
  | sqrt dstBase dstOffset srcPtr =>
    have haddr : pointerAddr (withProg P s) srcPtr = pointerAddr s srcPtr := rfl
    refine retire_withProg P s _ ?_
    simp only [haddr, hread, memWrite_withProg]
    cases pointerAddr s srcPtr with
    | error e => rfl
    | ok addr =>
      dsimp only
      cases memRead s addr with
      | error e => rfl
      | ok v =>
        dsimp only
        split <;> rfl

end

theorem runTuples_withProg (P : List Byte) (is : List Instr) (s : State) :
    runTuples is (withProg P s) = withProg P (runTuples is s) := by
  induction is generalizing s with
  | nil => rfl
  | cons i is ih =>
    obtain ⟨t, hexec, hexec'⟩ := exec_withProg P s i
    by_cases ht : t.status = .running
    · rw [runTuples_cons_of_running hexec ht, runTuples_cons_of_running hexec' ht, ih]
    · rw [runTuples_cons_of_ended hexec ht, runTuples_cons_of_ended hexec' ht]

/-! ### Running encoded instructions (R103) -/

/-- A running machine whose run has ended has taken its first step. -/
theorem exists_runSteps_eq {k : Nat} {s t : State} (hs : s.status = .running) (hstep : step s = .next t)
    (hended : Ended (runSteps k s)) : ∃ j, runSteps k s = runSteps j t := by
  cases k with
  | zero => exact absurd hs hended
  | succ j => exact ⟨j, runSteps_succ_of_next hstep j⟩

/-- A run over the bytes of well-formed instructions that has ended has executed them one after another. -/
theorem runSteps_eq_runTuples {is : List Instr} {k : Nat} {s : State} (hs : s.status = .running) (hpc : PcWithin s)
    (hwf : ∀ i ∈ is, WellFormed i) (hbytes : s.prog.drop s.pc = is.flatMap encode)
    (hended : Ended (runSteps k s)) : runSteps k s = runTuples is s := by
  induction is generalizing k s with
  | nil =>
    have hend : s.pc = s.prog.length := Nat.le_antisymm hpc (List.drop_eq_nil_iff.1 hbytes)
    obtain ⟨j, hj⟩ := exists_runSteps_eq hs (step_of_pc_eq_length hs hend) hended
    rw [hj, runSteps_of_ended (by simp [Ended]), runTuples]
  | cons i is ih =>
    obtain ⟨hi, his⟩ := List.forall_mem_cons.1 hwf
    rw [List.flatMap_cons] at hbytes
    have hd : decodeAt s.prog s.pc = .ok (i, (encode i).length) := by
      rw [decodeAt, hbytes, decodeBytes_encode_append hi]
    obtain ⟨t, hexec, -⟩ := exists_exec_next i s
    have hstep : step s = .next t := (step_of_decodeAt_ok hs hd).trans hexec
    obtain ⟨j, hj⟩ := exists_runSteps_eq hs hstep hended
    rw [hj] at hended ⊢
    by_cases ht : t.status = .running
    · obtain ⟨hprog, hpcT⟩ := exec_to_running hexec ht
      have hrest : t.prog.drop t.pc = is.flatMap encode := by
        rw [hprog, hpcT, ← List.drop_drop, hbytes, List.drop_left]
      rw [runTuples_cons_of_running hexec ht,
        ih ht (stepKeepsPcWithinProgram s t hpc hstep) his hrest hended]
    · rw [runTuples_cons_of_ended hexec ht, runSteps_of_ended ht]

/-- The line tuples of a text are well-formed: each is the instruction of a line that assembles. -/
theorem wellFormed_of_mem_lineTuples {text : Text} {i : Instr} (h : i ∈ lineTuples text) : WellFormed i := by
  obtain ⟨raw, -, hraw⟩ := List.mem_filterMap.1 h
  obtain ⟨-, hasm⟩ := (lineTuple_eq_some_iff raw i).1 hraw
  exact wellFormed_of_assembleLine hasm

/-- Settles O44: the Encoder's bytes are those of the line tuples, and executing these does not read the buffer. -/
theorem assembledProgramRunsAsItsTuples : Obligations.AssembledProgramRunsAsItsTuples := by
  intro cfg text out log h
  obtain ⟨-, hout, -⟩ := (encodeProgram_eq_ok_iff text out log).1 h
  have hrun : runProgram cfg out = runTuples (lineTuples text) (State.start cfg out) :=
    runSteps_eq_runTuples (start_status cfg out) (Nat.zero_le _) (fun _ => wellFormed_of_mem_lineTuples) hout
      (ended_runProgram cfg out)
  exact hrun.trans (runTuples_withProg out (lineTuples text) (State.start cfg []))

end Sys2Proof
end
